-- ==== Sys2Proof/Word.lean ====
section
/-! DEFINITION. The words the machine computes with (spec/00_scope.md rules R6, R7, R8): bytes, 16-bit words,
12-bit addresses, 4-bit minor fields and register indices. Every quantity is unsigned (R6). -/

namespace Sys2Proof

/-- An 8-bit value: a general register, a timer, a memory cell, the immediate `nn` (R8, R63). -/
abbrev Byte := BitVec 8

/-- A 16-bit value: the program counter, `I`, a stack entry, an instruction word (R8, R60). -/
abbrev Word := BitVec 16

/-- The 12-bit immediate `nnn` (R7, R63). -/
abbrev Addr12 := BitVec 12

/-- A 4-bit field of an instruction word (R7; the glossary's nibble). -/
abbrev Nibble := BitVec 4

/-- A general register's index, 0 to 15 (R21); `x` and `y` are four bits, so an index is never out of range (R49). -/
abbrev Reg := Fin 16

end Sys2Proof
end

