-- ==== Sys2Proof/Config.lean ====
section
/-! DEFINITION. The parameters of spec/00_scope.md rule R5. Its fixed sizes are written as the numbers the spec's
pseudocode uses, where they are used: addresses 0x000 to 0xFFF (`MEM_SIZE` 4096), 0x200 (`PROG_BASE`), 3584 (`ROM_MAX`),
16 registers, 16 stack entries, 64 columns and 32 rows (`FB_W`, `FB_H`), 16 keys, two bytes to an instruction. The bounds
policy is the fault (decision D1). `FONT`, `OPEN` in R5, is an argument: `State.resetWith` in Machine/State.lean. `TIMER_HZ` and `IPS` are wall-clock
rates that no rule depends on (R172, R206). What is left is the one free value, `RAND`. -/

namespace Sys2Proof.Config

/-- `RAND`, `OPEN` in R5: the generator value `r` of the k-th draw. FREE VALUE (log entry 1): it has no body, so no
proof can see a value of it, and what is proved holds for every generator. `Cxnn` takes it modulo `nn + 1` (R104). -/
opaque random : Nat → Nat

end Sys2Proof.Config
end

