-- ==== Sys2Proof/Syntax.lean ====
section
/-! DEFINITION. The instructions: one constructor for each of the 34 rows of spec/opcode_table.json, in the table's
order (spec/30_encoding.md rule R66). Register fields are indices, `nn` and `nnn` are bit fields taken as they stand
(R63), and `Dxyn`'s `n` is a row count (R63) whose bound Sys2Proof/WellFormed.lean checks. -/

namespace Sys2Proof

/-- An instruction (R66). `8xy6` and `8xyE` carry the `y` field that they ignore (R70), so that no bit of their
encoding is lost. -/
inductive Instr where
  /-- `00E0` CLS: clear the display (R126). -/
  | cls
  /-- `00EE` RET: return from subroutine (R81). -/
  | ret
  /-- `1nnn` JP: jump (R82). -/
  | jp (nnn : Addr12)
  /-- `2nnn` CALL: call subroutine (R83). -/
  | call (nnn : Addr12)
  /-- `3xnn` SE: skip if register equals immediate (R91). -/
  | seImm (x : Reg) (nn : Byte)
  /-- `4xnn` SNE: skip if register differs from immediate (R92). -/
  | sneImm (x : Reg) (nn : Byte)
  /-- `5xy0` SE: skip if registers are equal (R93). -/
  | seReg (x y : Reg)
  /-- `6xnn` LD: load immediate (R101). -/
  | ldImm (x : Reg) (nn : Byte)
  /-- `7xnn` ADD: add immediate, no flag (R102). -/
  | addImm (x : Reg) (nn : Byte)
  /-- `8xy0` LD: copy register (R111). -/
  | ldReg (x y : Reg)
  /-- `8xy1` OR (R112). -/
  | orReg (x y : Reg)
  /-- `8xy2` AND (R113). -/
  | andReg (x y : Reg)
  /-- `8xy3` XOR (R114). -/
  | xorReg (x y : Reg)
  /-- `8xy4` ADD with carry out (R115). -/
  | addReg (x y : Reg)
  /-- `8xy5` SUB, flag is no-borrow (R116). -/
  | subReg (x y : Reg)
  /-- `8xy6` SHR in place; `y` is ignored (R117, R70). -/
  | shr (x y : Reg)
  /-- `8xy7` SUBN: reverse subtract, flag is no-borrow (R118). -/
  | subnReg (x y : Reg)
  /-- `8xyE` SHL in place; `y` is ignored (R119, R70). -/
  | shl (x y : Reg)
  /-- `9xy0` SNE: skip if registers differ (R94). -/
  | sneReg (x y : Reg)
  /-- `Annn` LD I: load the address register (R103). -/
  | ldI (nnn : Addr12)
  /-- `Bnnn` JP V0: jump with offset (R84). -/
  | jpV0 (nnn : Addr12)
  /-- `Cxnn` RND: random value not above `nn` (R104). -/
  | rnd (x : Reg) (nn : Byte)
  /-- `Dxyn` DRW: draw an 8-by-`n` sprite and report collision (R127). -/
  | drw (x y : Reg) (n : Nat)
  /-- `Ex9E` SKP: skip if key held (R131). -/
  | skp (x : Reg)
  /-- `ExA1` SKNP: skip if key not held (R132). -/
  | sknp (x : Reg)
  /-- `Fx07` LD Vx, DT: read the delay timer (R141). -/
  | ldVxDT (x : Reg)
  /-- `Fx0A` LD Vx, K: wait for a key press (R133). -/
  | ldVxK (x : Reg)
  /-- `Fx15` LD DT, Vx: write the delay timer (R142). -/
  | ldDTVx (x : Reg)
  /-- `Fx18` LD ST, Vx: write the sound timer (R143). -/
  | ldSTVx (x : Reg)
  /-- `Fx1E` ADD I, Vx: add register to the address register (R146). -/
  | addIVx (x : Reg)
  /-- `Fx29` LD F, Vx: point `I` at a font glyph (R147). -/
  | ldFVx (x : Reg)
  /-- `Fx33` LD B, Vx: store the three decimal digits of a register (R148). -/
  | ldBVx (x : Reg)
  /-- `Fx55` LD [I], Vx: dump `V[0]` to `V[x]` to memory (R149). -/
  | storeRegs (x : Reg)
  /-- `Fx65` LD Vx, [I]: load `V[0]` to `V[x]` from memory (R150). -/
  | loadRegs (x : Reg)
deriving DecidableEq, Repr

end Sys2Proof
end

