-- ==== Sys2Proof/WellFormed.lean ====
section
/-! DEFINITION. What the types of Sys2Proof/Syntax.lean do not check: the sprite height of `Dxyn` is a four-bit field
(spec/30_encoding.md rules R61, R63), and a ROM image has at most 3584 bytes (spec/70_reset_and_hazards.md rule R195). -/

namespace Sys2Proof

/-- The instruction has an encoding: every field fits its bits. Registers, `nn` and `nnn` fit by their types, so one
field is left to check, the row count of `Dxyn`, 0 to 15 (R63). -/
def Instr.wellFormed : Instr → Bool
  | .drw _ _ n => decide (n < 16)
  | .cls | .ret | .jp _ | .call _ | .seImm _ _ | .sneImm _ _ | .seReg _ _ | .ldImm _ _ | .addImm _ _ => true
  | .ldReg _ _ | .orReg _ _ | .andReg _ _ | .xorReg _ _ | .addReg _ _ | .subReg _ _ | .shr _ _ | .subnReg _ _ => true
  | .shl _ _ | .sneReg _ _ | .ldI _ | .jpV0 _ | .rnd _ _ | .skp _ | .sknp _ | .ldVxDT _ | .ldVxK _ => true
  | .ldDTVx _ | .ldSTVx _ | .addIVx _ | .ldFVx _ | .ldBVx _ | .storeRegs _ | .loadRegs _ => true

/-- A ROM image that `load_rom` accepts: at most `ROM_MAX` bytes, the empty one and an odd length included (R194, R195). -/
def romWellFormed (bytes : List Byte) : Bool := decide (bytes.length ≤ 3584)

end Sys2Proof
end

