-- ==== Sys2Proof/Decode.lean ====
section
/-! DEFINITION. The decoder and the encoder (spec/30_encoding.md rules R60 to R70; spec/20_memory.md rule R44). The
decoder extracts the fields of a word (R61), finds the one row of the opcode map whose mask and match fit it (R64,
R65, R66) and rejects by name a word that no row fits (R68). -/

namespace Sys2Proof

/-- A field's bits at their place in a word, the lowest at bit `lo` (R6, R61). -/
def fieldAt {k : Nat} (lo : Nat) (v : BitVec k) : Word := v.setWidth 16 <<< lo

/-- The two bytes at `pc` and `pc + 1` as one instruction word, `(hi << 8) OR lo`: the byte at the lower address is the
high one (R44). -/
def joinBytes (hi lo : Byte) : Word := fieldAt 8 hi ||| fieldAt 0 lo

/-- The bytes of a word as memory stores them, the high byte at the lower address (R44). -/
def bytesOfWord (w : Word) : List Byte := [w.extractLsb' 8 8, w.extractLsb' 0 8]

/-- The fields of an instruction word (R61). -/
structure Fields where
  /-- Bits 15 to 12: the major opcode. -/
  op : Nibble
  /-- Bits 11 to 8: the first register index. -/
  x : Reg
  /-- Bits 7 to 4: the second register index. -/
  y : Reg
  /-- Bits 3 to 0: the 4-bit immediate. -/
  n : Nibble
  /-- Bits 7 to 0: the 8-bit immediate. -/
  nn : Byte
  /-- Bits 11 to 0: the 12-bit address. -/
  nnn : Addr12
deriving DecidableEq, Repr

/-- Field extraction, total on every word (R61). -/
def fieldsOf (w : Word) : Fields where
  op := w.extractLsb' 12 4
  x := (w.extractLsb' 8 4).toFin
  y := (w.extractLsb' 4 4).toFin
  n := w.extractLsb' 0 4
  nn := w.extractLsb' 0 8
  nnn := w.extractLsb' 0 12

/-- A row of the opcode map: it selects a word `w` when `w AND mask = pattern` (R65, R66). -/
structure OpcodeRow where
  /-- The table's mnemonic. -/
  mnemonic : String
  /-- The bits that are compared. -/
  mask : Word
  /-- What the compared bits must be (the table's `match`). -/
  pattern : Word
  /-- The instruction, from the word's fields. -/
  build : Fields → Instr

/-- The row's digits are those of the word (R65). -/
def OpcodeRow.fits (r : OpcodeRow) (w : Word) : Bool := w &&& r.mask == r.pattern

/-- The rows of groups 0 to 7 (R66). -/
def opcodeRowsLow : List OpcodeRow := [
  ⟨"CLS", 0xFFFF, 0x00E0, fun _ => .cls⟩,
  ⟨"RET", 0xFFFF, 0x00EE, fun _ => .ret⟩,
  ⟨"JP_nnn", 0xF000, 0x1000, fun f => .jp f.nnn⟩,
  ⟨"CALL_nnn", 0xF000, 0x2000, fun f => .call f.nnn⟩,
  ⟨"SE_Vx__nn", 0xF000, 0x3000, fun f => .seImm f.x f.nn⟩,
  ⟨"SNE_Vx__nn", 0xF000, 0x4000, fun f => .sneImm f.x f.nn⟩,
  ⟨"SE_Vx__Vy", 0xF00F, 0x5000, fun f => .seReg f.x f.y⟩,
  ⟨"LD_Vx__nn", 0xF000, 0x6000, fun f => .ldImm f.x f.nn⟩,
  ⟨"ADD_Vx__nn", 0xF000, 0x7000, fun f => .addImm f.x f.nn⟩]

/-- The rows of group 8 (R66). -/
def opcodeRowsAlu : List OpcodeRow := [
  ⟨"LD_Vx__Vy", 0xF00F, 0x8000, fun f => .ldReg f.x f.y⟩,
  ⟨"OR_Vx__Vy", 0xF00F, 0x8001, fun f => .orReg f.x f.y⟩,
  ⟨"AND_Vx__Vy", 0xF00F, 0x8002, fun f => .andReg f.x f.y⟩,
  ⟨"XOR_Vx__Vy", 0xF00F, 0x8003, fun f => .xorReg f.x f.y⟩,
  ⟨"ADD_Vx__Vy", 0xF00F, 0x8004, fun f => .addReg f.x f.y⟩,
  ⟨"SUB_Vx__Vy", 0xF00F, 0x8005, fun f => .subReg f.x f.y⟩,
  ⟨"SHR_Vx", 0xF00F, 0x8006, fun f => .shr f.x f.y⟩,
  ⟨"SUBN_Vx__Vy", 0xF00F, 0x8007, fun f => .subnReg f.x f.y⟩,
  ⟨"SHL_Vx", 0xF00F, 0x800E, fun f => .shl f.x f.y⟩]

/-- The rows of groups 9 to E (R66). -/
def opcodeRowsHigh : List OpcodeRow := [
  ⟨"SNE_Vx__Vy", 0xF00F, 0x9000, fun f => .sneReg f.x f.y⟩,
  ⟨"LD_I__nnn", 0xF000, 0xA000, fun f => .ldI f.nnn⟩,
  ⟨"JP_V0__nnn", 0xF000, 0xB000, fun f => .jpV0 f.nnn⟩,
  ⟨"RND_Vx__nn", 0xF000, 0xC000, fun f => .rnd f.x f.nn⟩,
  ⟨"DRW_Vx__Vy__n", 0xF000, 0xD000, fun f => .drw f.x f.y f.n.toNat⟩,
  ⟨"SKP_Vx", 0xF0FF, 0xE09E, fun f => .skp f.x⟩,
  ⟨"SKNP_Vx", 0xF0FF, 0xE0A1, fun f => .sknp f.x⟩]

/-- The rows of group F (R66). -/
def opcodeRowsF : List OpcodeRow := [
  ⟨"LD_Vx__DT", 0xF0FF, 0xF007, fun f => .ldVxDT f.x⟩,
  ⟨"LD_Vx__K", 0xF0FF, 0xF00A, fun f => .ldVxK f.x⟩,
  ⟨"LD_DT__Vx", 0xF0FF, 0xF015, fun f => .ldDTVx f.x⟩,
  ⟨"LD_ST__Vx", 0xF0FF, 0xF018, fun f => .ldSTVx f.x⟩,
  ⟨"ADD_I__Vx", 0xF0FF, 0xF01E, fun f => .addIVx f.x⟩,
  ⟨"LD_F__Vx", 0xF0FF, 0xF029, fun f => .ldFVx f.x⟩,
  ⟨"LD_B__Vx", 0xF0FF, 0xF033, fun f => .ldBVx f.x⟩,
  ⟨"LD__I___Vx", 0xF0FF, 0xF055, fun f => .storeRegs f.x⟩,
  ⟨"LD_Vx___I", 0xF0FF, 0xF065, fun f => .loadRegs f.x⟩]

/-- The complete opcode map, 34 rows in the table's order (R66). -/
def opcodeTable : List OpcodeRow := opcodeRowsLow ++ opcodeRowsAlu ++ opcodeRowsHigh ++ opcodeRowsF

/-- The instruction a word stands for; `none` when no row fits (R64, R68). -/
def decodeWord (w : Word) : Option Instr :=
  (opcodeTable.find? (·.fits w)).map fun r => r.build (fieldsOf w)

/-- Why bytes do not decode. -/
inductive DecodeError where
  /-- Fewer than two bytes are left: an instruction is exactly two bytes (R60). -/
  | truncated
  /-- The word fits no row of the opcode map (R68). -/
  | unknownOpcode (instr : Word)
deriving DecidableEq, Repr

/-- Decode the first instruction of a byte sequence, total on any bytes: the instruction with the bytes that are left,
or the rejection by name (R60, R44, R68). -/
def decode : List Byte → Except DecodeError (Instr × List Byte)
  | hi :: lo :: rest =>
    match decodeWord (joinBytes hi lo) with
    | some i => .ok (i, rest)
    | none => .error (.unknownOpcode (joinBytes hi lo))
  | _ => .error .truncated

/-- Format NNN: `op` and a 12-bit address (R62). -/
def formatNNN (op : Nibble) (nnn : Addr12) : Word := fieldAt 12 op ||| fieldAt 0 nnn

/-- Format XNN, and format XF with a minor opcode for `nn`: `op`, a register, eight bits (R62). -/
def formatXNN (op : Nibble) (x : Reg) (nn : Byte) : Word :=
  fieldAt 12 op ||| fieldAt 8 (BitVec.ofFin x : Nibble) ||| fieldAt 0 nn

/-- Format XYN: `op`, two registers, four bits (R62). -/
def formatXYN (op : Nibble) (x y : Reg) (n : Nibble) : Word :=
  fieldAt 12 op ||| fieldAt 8 (BitVec.ofFin x : Nibble) ||| fieldAt 4 (BitVec.ofFin y : Nibble) ||| fieldAt 0 n

/-- The word of a well-formed instruction, from the formats of R62 and the `encoding` column of the opcode table. -/
def encode : Instr → Word
  | .cls => 0x00E0
  | .ret => 0x00EE
  | .jp nnn => formatNNN 0x1 nnn
  | .call nnn => formatNNN 0x2 nnn
  | .seImm x nn => formatXNN 0x3 x nn
  | .sneImm x nn => formatXNN 0x4 x nn
  | .seReg x y => formatXYN 0x5 x y 0x0
  | .ldImm x nn => formatXNN 0x6 x nn
  | .addImm x nn => formatXNN 0x7 x nn
  | .ldReg x y => formatXYN 0x8 x y 0x0
  | .orReg x y => formatXYN 0x8 x y 0x1
  | .andReg x y => formatXYN 0x8 x y 0x2
  | .xorReg x y => formatXYN 0x8 x y 0x3
  | .addReg x y => formatXYN 0x8 x y 0x4
  | .subReg x y => formatXYN 0x8 x y 0x5
  | .shr x y => formatXYN 0x8 x y 0x6
  | .subnReg x y => formatXYN 0x8 x y 0x7
  | .shl x y => formatXYN 0x8 x y 0xE
  | .sneReg x y => formatXYN 0x9 x y 0x0
  | .ldI nnn => formatNNN 0xA nnn
  | .jpV0 nnn => formatNNN 0xB nnn
  | .rnd x nn => formatXNN 0xC x nn
  | .drw x y n => formatXYN 0xD x y (BitVec.ofNat 4 n)
  | .skp x => formatXNN 0xE x 0x9E
  | .sknp x => formatXNN 0xE x 0xA1
  | .ldVxDT x => formatXNN 0xF x 0x07
  | .ldVxK x => formatXNN 0xF x 0x0A
  | .ldDTVx x => formatXNN 0xF x 0x15
  | .ldSTVx x => formatXNN 0xF x 0x18
  | .addIVx x => formatXNN 0xF x 0x1E
  | .ldFVx x => formatXNN 0xF x 0x29
  | .ldBVx x => formatXNN 0xF x 0x33
  | .storeRegs x => formatXNN 0xF x 0x55
  | .loadRegs x => formatXNN 0xF x 0x65

/-- The instruction word the host numbers `w`: the `nbits` low bits, every bit above them 0 (an instruction has 16). -/
def tableWord (nbits w : Nat) : Word := BitVec.ofNat 16 (w % 2 ^ nbits)

/-- What the decoder reads from the instruction word `w` of the opcode table, laid out in bytes as memory stores it. -/
def decodeTableWord (nbits w : Nat) : Option Instr :=
  match decode (bytesOfWord (tableWord nbits w)) with
  | .ok (i, _) => some i
  | .error _ => none

end Sys2Proof
end

