-- ==== Sys2Proof/Machine/Font.lean ====
section
/-! DEFINITION. The font table, parameter `FONT` of spec/00_scope.md rule R5. The spec fixes its place and shape and
leaves its bytes OPEN: the model takes them as an argument, `State.resetWith` (Machine/State.lean). The table below is the
spec's own default (spec/70_reset_and_hazards.md rule R192, decision D13), which it marks as general knowledge; only
`State.reset` uses it. PRESUMED: log entry 2. -/

namespace Sys2Proof.Machine

/-- A font table: 80 bytes, glyph `g` at `5 * g` (R5, R42). -/
abbrev Font := Vector Byte 80

/-- Glyphs 0 to 7 of the default font table (R192). -/
def fontLow : List Byte := [
  0xF0, 0x90, 0x90, 0x90, 0xF0,
  0x20, 0x60, 0x20, 0x20, 0x70,
  0xF0, 0x10, 0xF0, 0x80, 0xF0,
  0xF0, 0x10, 0xF0, 0x10, 0xF0,
  0x90, 0x90, 0xF0, 0x10, 0x10,
  0xF0, 0x80, 0xF0, 0x10, 0xF0,
  0xF0, 0x80, 0xF0, 0x90, 0xF0,
  0xF0, 0x10, 0x20, 0x40, 0x40]

/-- Glyphs 8 to F of the default font table (R192). -/
def fontHigh : List Byte := [
  0xF0, 0x90, 0xF0, 0x90, 0xF0,
  0xF0, 0x90, 0xF0, 0x10, 0xF0,
  0xF0, 0x90, 0xF0, 0x90, 0x90,
  0xE0, 0x90, 0xE0, 0x90, 0xE0,
  0xF0, 0x80, 0x80, 0x80, 0xF0,
  0xE0, 0x90, 0x90, 0x90, 0xE0,
  0xF0, 0x80, 0xF0, 0x80, 0xF0,
  0xF0, 0x80, 0xF0, 0x80, 0x80]

/-- The default font table (R192). -/
def defaultFont : Font := ⟨(fontLow ++ fontHigh).toArray, rfl⟩

end Sys2Proof.Machine
end

