-- ==== Sys2Proof/Machine/State.lean ====
section
/-! DEFINITION. The architectural state (spec/10_state.md rule R20), the faults of a step (spec/60_exceptions.md rule
R160) and the state after reset (spec/70_reset_and_hazards.md rule R190). -/

namespace Sys2Proof.Machine

/-- Memory as (address, byte) pairs: addresses strictly rising, and no entry equal to what an unlisted address reads as
(`Memory.wf` in Machine/Memory.lean). With the font table it stands for the 4096 bytes 0x000 to 0xFFF (R26, R40). -/
abbrev Memory := List Host.Cell

/-- The framebuffer, 64 columns by 32 rows, one bit a pixel (R29, R125, decision D23): row `py` is element `py`, and the
pixel in column `px` is bit `px` of its row, so element `px + py * 64` of the spec's row-major array. -/
abbrev Framebuffer := Vector (BitVec 64) 32

/-- The 16 keys, `true` while held (R32); the key-wait snapshot has the same shape (R35). -/
abbrev Keys := Vector Bool 16

/-- The complete state (R20), the machine's parameter `font`, and the model's own counter `draws`. -/
structure State where
  /-- General registers `V[0]` to `V[15]`; `V[15]` is `VF`, the only flag (R21, R22). -/
  V : Vector Byte 16
  /-- The address register (R23). -/
  I : Word
  /-- The program counter: the address of the next instruction to fetch (R24). -/
  pc : Word
  /-- The 4096 bytes of memory (R26). -/
  memory : Memory
  /-- The 16 return-stack entries, a space of their own (R27). -/
  stack : Vector Word 16
  /-- The stack pointer, 0 to 16: entries in use, and index of the next free one (R28, decision D14). -/
  sp : Fin 17
  /-- The framebuffer (R29). -/
  fb : Framebuffer
  /-- The delay timer (R30). -/
  DT : Byte
  /-- The sound timer (R31). -/
  ST : Byte
  /-- The keyboard (R32). -/
  key : Keys
  /-- The byte length of the loaded program, 0 to 3584 (R33, decision D14). -/
  romSize : Fin 3585
  /-- The key-wait state machine of `Fx0A`: `true` is `Armed`, `false` is `Idle` (R34). -/
  kwArmed : Bool
  /-- The keyboard as it was when `Fx0A` armed (R35). -/
  kwSnap : Keys
  /-- THE MODEL'S OWN FIELD, not the spec's (log entry 1): how many values `Cxnn` has drawn; it indexes the free value
  `Config.random`. -/
  draws : Nat
  /-- THE MODEL'S OWN FIELD: the parameter `FONT` of this machine (R5, log entry 2). It is fixed for a machine: no step and
  no move of another agent changes it. Addresses that the memory does not list read from it (R190). -/
  font : Font
deriving DecidableEq, Repr

/-- What an out-of-range access was (R160, decision D1). -/
inductive AccessKind where
  /-- The instruction fetch. -/
  | fetch
  /-- A read of memory at `I` by `Dxyn` or `Fx65`. -/
  | dataRead
  /-- A write of memory at `I` by `Fx33` or `Fx55`. -/
  | dataWrite
  /-- A call with the stack full. -/
  | stackPush
  /-- A return with the stack empty. -/
  | stackPop
  /-- A key number above 15. -/
  | keyIndex
deriving DecidableEq, Repr

/-- The faults of a step, all of them and each with its recorded value (R160). A faulting step changes nothing (R166). -/
inductive Fault where
  /-- Raised by `step` at decode, when the word fits no row of the opcode map (R161). SAFE: the spec's own outcome; a
  run that holds one has gone wrong (R181). -/
  | unknownOpcode (pc instr : Word)
  /-- Raised by `step` at fetch and by `Dxyn`, `Fx65`, `Fx33`, `Fx55`, `2nnn`, `00EE`, `Ex9E`, `ExA1` before their first
  write (R162, R165). SAFE: the spec's own outcome (decisions D1, D6 take the fault over a wrap). -/
  | addressOutOfRange (kind : AccessKind) (value : Nat)
deriving DecidableEq, Repr

/-- Why an instruction has no meaning in this model. -/
inductive Refusal where
  /-- Raised by an arm of `exec` alone, for an instruction not modelled yet. SAFE: nothing is claimed of it. No arm
  raises it now. -/
  | notModelled (mnemonic : String)
deriving DecidableEq, Repr

/-- The state after `init` (R190) of the machine whose parameter `FONT` is the argument (R5): every field zero, the program
counter at 0x200. The memory lists nothing: an unlisted address reads as the font table at 0x000 to 0x04F and 0x00 above it
(Machine/Memory.lean). -/
def State.resetWith (font : Font) : State where
  V := Vector.replicate 16 0
  I := 0
  pc := 0x200
  memory := []
  stack := Vector.replicate 16 0
  sp := 0
  fb := Vector.replicate 32 0
  DT := 0
  ST := 0
  key := Vector.replicate 16 false
  romSize := 0
  kwArmed := false
  kwSnap := Vector.replicate 16 false
  draws := 0
  font := font

/-- The reset state of the machine whose font table is the spec's default (R192). PRESUMED: log entry 2. -/
def State.reset : State := State.resetWith defaultFont

end Sys2Proof.Machine
end

