-- ==== Sys2Proof/Machine/Memory.lean ====
section
/-! DEFINITION. Memory (spec/20_memory.md): the byte accesses `MemRead` and `MemWrite` (spec/00_scope.md rule R8, R48)
and the multi-byte accesses built from them at ascending addresses (R48). A byte has no access side effect, and no
region is protected (R43, R48). -/

namespace Sys2Proof.Machine

/-- What an address that the memory does not list reads as, the contents after `init` (R190, R57): the machine's font
table from 0x000, 0x00 above it. -/
def unlistedByte (font : Font) (a : Nat) : Byte := if h : a < 80 then font.get ⟨a, h⟩ else 0

/-- `MemRead(a, 1)` (R8): the latest byte written to `a`, or what reset left there. The caller has checked the bound. -/
def Memory.read (font : Font) : Memory → Nat → Byte
  | [], a => unlistedByte font a
  | (b, v) :: rest, a => if b = a then v else Memory.read font rest a

/-- A cell put at its place in an ascending list that does not hold its address. -/
def Memory.insert (c : Host.Cell) : Memory → Memory
  | [] => [c]
  | d :: rest => if c.1 < d.1 then c :: d :: rest else d :: Memory.insert c rest

/-- `MemWrite(a, 1, v)` (R8). It keeps the canonical form: writing what an unlisted address reads as removes the entry.
The caller has checked the bound. -/
def Memory.write (font : Font) (m : Memory) (a : Nat) (v : Byte) : Memory :=
  let others := m.filter fun c => c.1 != a
  if v = unlistedByte font a then others else Memory.insert (a, v) others

/-- The `n` bytes at `a`, `a + 1`, … (R48). -/
def Memory.readBytes (font : Font) (m : Memory) (a : Nat) : Nat → List Byte
  | 0 => []
  | n + 1 => Memory.read font m a :: Memory.readBytes font m (a + 1) n

/-- Store the bytes at `a`, `a + 1`, … (R48). -/
def Memory.writeBytes (font : Font) (m : Memory) (a : Nat) : List Byte → Memory
  | [] => m
  | b :: bs => Memory.writeBytes font (Memory.write font m a b) (a + 1) bs

/-- The canonical form: addresses strictly rising and inside memory (R26), no entry equal to what an unlisted address
reads as. -/
abbrev Memory.wf (font : Font) (m : Memory) : Prop :=
  m.Pairwise (fun c d => c.1 < d.1) ∧ ∀ c ∈ m, c.1 ≤ 0xFFF ∧ c.2 ≠ unlistedByte font c.1

end Sys2Proof.Machine
end

