-- ==== Sys2Proof/Machine/Ops.lean ====
section
/-! DEFINITION. The named operations over registers, memory, stack and outcome that the meanings are written in: one
home for each access of spec/10_state.md, the bounds checks of spec/20_memory.md rules R47 and R49, and raising a fault
(spec/60_exceptions.md rule R166). -/

namespace Sys2Proof.Machine

/-- The outcome of an instruction: completed or a fault (R12); the refusal of Host/Core.lean is never used. -/
abbrev Result := Host.Outcome State Fault Refusal

/-! ### Faults: this machine's only form of exception -/

/-- RAISING A FAULT, the one shared operation (R166). Nothing is saved, no mode changes and control goes nowhere: the
fault is the value of the step and the state stays as it was before the step. There is no return from it (R167). -/
def raise (f : Fault) : Result := .fault f

/-- Go on with the value of a check or raise its fault; every check comes before the first write (R47, R166). -/
def checked {α : Type} (r : Except Fault α) (k : α → Result) : Result :=
  match r with
  | .error f => raise f
  | .ok a => k a

/-! ### Registers -/

/-- `V[r]` (R8, R21): every register reads what was written last. -/
def State.readV (s : State) (r : Reg) : Byte := s.V.get r

/-- `V[r] <- b` (R8, R21): no register is hard-wired. -/
def State.writeV (s : State) (r : Reg) (b : Byte) : State := { s with V := s.V.set r.val b r.isLt }

/-- The index of `VF`, the register that doubles as the flag (R22). -/
def flagReg : Reg := 15

/-- `VF <- flag`: 0x00 or 0x01 (R22). -/
def State.writeFlag (s : State) (flag : Bool) : State := s.writeV flagReg (if flag then 0x01 else 0x00)

/-- `I <- w` (R23). -/
def State.setI (s : State) (w : Word) : State := { s with I := w }

/-- `pc <- target`; targets are not checked (R24, R80). -/
def State.setPc (s : State) (target : Word) : State := { s with pc := target }

/-- `pc <- pc + 2`, past the instruction (R67). -/
def State.advance (s : State) : State := s.setPc (s.pc + 2)

/-- `DT <- b` (R30). -/
def State.setDT (s : State) (b : Byte) : State := { s with DT := b }

/-- `ST <- b` (R31). -/
def State.setST (s : State) (b : Byte) : State := { s with ST := b }

/-- Replace the framebuffer (R29). -/
def State.setFb (s : State) (fb : Framebuffer) : State := { s with fb := fb }

/-- `Fx0A` arms: the keyboard is copied into the snapshot (R133). -/
def State.armKeyWait (s : State) : State := { s with kwSnap := s.key, kwArmed := true }

/-- `Fx0A` resolves: back to `Idle`, the snapshot kept (R133, decision D21). -/
def State.disarmKeyWait (s : State) : State := { s with kwArmed := false }

/-- One more value of the free sequence `Config.random` is used up (log entry 1). -/
def State.countDraw (s : State) : State := { s with draws := s.draws + 1 }

/-! ### Memory -/

/-- `MemRead(a, 1)` on the state (R8). -/
def State.readByte (s : State) (a : Nat) : Byte := Memory.read s.font s.memory a

/-- The `n` bytes at `a` and up (R48). -/
def State.readBytes (s : State) (a n : Nat) : List Byte := Memory.readBytes s.font s.memory a n

/-- `MemWrite` of consecutive bytes at `a` and up (R48). -/
def State.writeBytes (s : State) (a : Nat) (bs : List Byte) : State :=
  { s with memory := Memory.writeBytes s.font s.memory a bs }

/-- The bounds check of an `I`-relative access to `len` bytes at `base`, on unbounded numbers (R47, decision D20): it
fails when a byte of the range lies past 0xFFF; an empty range never fails (R127). -/
def checkRange (kind : AccessKind) (base : Word) (len : Nat) : Except Fault Unit :=
  if 0 < len ∧ base.toNat + (len - 1) > 0xFFF then .error (.addressOutOfRange kind base.toNat) else .ok ()

/-! ### Stack -/

/-- Push the address of the executing call: `stack[sp] <- pc`, `sp <- sp + 1`; a full stack faults (R83, R49). -/
def State.pushPc (s : State) : Except Fault State :=
  if h : s.sp.val < 16 then
    .ok { s with stack := s.stack.set s.sp.val s.pc h, sp := ⟨s.sp.val + 1, Nat.succ_lt_succ h⟩ }
  else
    .error (.addressOutOfRange .stackPush s.sp.val)

/-- Pop a call's address: `sp <- sp - 1`, then `stack[sp]`, which is not erased; an empty stack faults (R81, R49). -/
def State.popPc (s : State) : Except Fault (Word × State) :=
  if h : s.sp.val = 0 then
    .error (.addressOutOfRange .stackPop s.sp.val)
  else
    have hlt : s.sp.val - 1 < 16 := by have := s.sp.isLt; omega
    .ok (s.stack.get ⟨s.sp.val - 1, hlt⟩, { s with sp := ⟨s.sp.val - 1, Nat.lt_succ_of_lt hlt⟩ })

/-! ### Keyboard -/

/-- The key that a register names: its whole 8-bit value, a value above 15 faults (R130, R49, decision D6). -/
def checkKey (b : Byte) : Except Fault (Fin 16) :=
  if h : b.toNat < 16 then .ok ⟨b.toNat, h⟩ else .error (.addressOutOfRange .keyIndex b.toNat)

/-- The lowest key that is up in the snapshot and down now (R133, decision D7). -/
def firstFreshKey (snap live : Keys) : Option (Fin 16) :=
  (List.finRange 16).find? fun k => !snap.get k && live.get k

end Sys2Proof.Machine
end

