-- ==== Sys2Proof/Machine/Operands.lean ====
section
/-! DEFINITION. The operand forms of spec/30_encoding.md rule R63 and the values that instructions compute from them:
immediates zero-extended, the implicit `V[0]`, ranges of registers, decimal digits, glyph addresses, the random draw,
sprite bits. There is no signed operand anywhere (R6). -/

namespace Sys2Proof.Machine

/-- `zext_16(nnn)` (R63, R8). -/
def zextAddr (nnn : Addr12) : Word := nnn.setWidth 16

/-- `zext_16(b)` of a register's byte (R8). -/
def zextByte (b : Byte) : Word := b.setWidth 16

/-- The address of the font glyph a byte names, `5 * zext_16(b)`; the whole byte counts (R147). -/
def glyphAddr (b : Byte) : Word := 5 * zextByte b

/-- The three decimal digits of a byte, hundreds first, one digit a byte (R148). -/
def bcdDigits (b : Byte) : List Byte :=
  [BitVec.ofNat 8 (b.toNat / 100), BitVec.ofNat 8 (b.toNat / 10 % 10), BitVec.ofNat 8 (b.toNat % 10)]

/-- `draw(0, nn)`: the generator's k-th value modulo `nn + 1`, which is formed above 8 bits (R104, decision D9). The
generator is free (log entry 1). -/
def drawBelow (k : Nat) (nn : Byte) : Byte := BitVec.ofNat 8 (Config.random k % (nn.toNat + 1))

/-- The registers `V[0]` to `V[x]` as bytes, lowest first (R149). -/
def State.regsUpTo (s : State) (x : Reg) : List Byte := s.V.toList.take (x.val + 1)

/-- Put bytes into consecutive registers from number `k` (R150). -/
def loadFrom (k : Nat) : List Byte → Vector Byte 16 → Vector Byte 16
  | [], V => V
  | b :: bs, V => loadFrom (k + 1) bs (V.setIfInBounds k b)

/-- `V[k] <- bs[k]` from `V[0]` up (R150). -/
def State.loadRegsFrom (s : State) (bs : List Byte) : State := { s with V := loadFrom 0 bs s.V }

/-- Pixel `p` of a sprite's row, from the left: bit 7 of the byte is the leftmost (R125). -/
def spriteBit (b : Byte) (p : Nat) : Bool := b.getLsbD (7 - p)

end Sys2Proof.Machine
end

