-- ==== Sys2Proof/Machine/Flags.lean ====
section
/-! DEFINITION. The flag computations (spec/10_state.md rule R22; spec/43_alu.md rules R115 to R119). `VF` is the only
flag; each is computed from the operands as read before any write (R110). The collision flag of `Dxyn` is computed with
the picture in Machine/Display.lean. -/

namespace Sys2Proof.Machine

/-- The carry out of an 8-bit add: the exact sum exceeds 255 (R115). -/
def carryOut (a b : Byte) : Bool := decide (a.toNat + b.toNat > 255)

/-- No borrow in `a - b`: `a` is not below `b` (R116, R118). -/
def noBorrow (a b : Byte) : Bool := decide (b.toNat ≤ a.toNat)

/-- The bit shifted out at the low end (R117). -/
def lowBitOut (a : Byte) : Bool := a.getLsbD 0

/-- The bit shifted out at the high end (R119). -/
def highBitOut (a : Byte) : Bool := a.getLsbD 7

end Sys2Proof.Machine
end

