-- ==== Sys2Proof/Machine/Immediate.lean ====
section
/-! DEFINITION. Immediate loads, immediate add and random (spec/42_immediate.md): `6xnn`, `7xnn`, `Annn`, `Cxnn`. None
writes a flag and none can fault (R100). -/

namespace Sys2Proof.Machine

/-- Write one register and go on to the next instruction. -/
def writeRegNext (x : Reg) (b : Byte) (s : State) : Result := .next (s.writeV x b).advance

/-- `6xnn` (R101). -/
def execLdImm (x : Reg) (nn : Byte) (s : State) : Result := writeRegNext x nn s

/-- `7xnn` (R102): the sum is taken modulo 256 and the carry is lost. -/
def execAddImm (x : Reg) (nn : Byte) (s : State) : Result := writeRegNext x (s.readV x + nn) s

/-- `Annn` (R103). -/
def execLdI (nnn : Addr12) (s : State) : Result := .next (s.setI (zextAddr nnn)).advance

/-- `Cxnn` (R104): a free value from 0 to `nn` (log entry 1). -/
def execRnd (x : Reg) (nn : Byte) (s : State) : Result := writeRegNext x (drawBelow s.draws nn) s.countDraw

end Sys2Proof.Machine
end

