-- ==== Sys2Proof/Machine/Alu.lean ====
section
/-! DEFINITION. The ALU group (spec/43_alu.md): `8xy0` to `8xy7` and `8xyE`. Operands are read first, the result is
written next, and the flag is written last and wins when `x` is 15 (R110). -/

namespace Sys2Proof.Machine

/-- Write the result to `V[x]`, then the flag to `VF`, and go on (R110). -/
def writeRegFlagNext (x : Reg) (b : Byte) (flag : Bool) (s : State) : Result :=
  .next ((s.writeV x b).writeFlag flag).advance

/-- `8xy0` (R111). -/
def execLdReg (x y : Reg) (s : State) : Result := writeRegNext x (s.readV y) s

/-- `8xy1` (R112): `VF` is left alone. -/
def execOrReg (x y : Reg) (s : State) : Result := writeRegNext x (s.readV x ||| s.readV y) s

/-- `8xy2` (R113): `VF` is left alone. -/
def execAndReg (x y : Reg) (s : State) : Result := writeRegNext x (s.readV x &&& s.readV y) s

/-- `8xy3` (R114): `VF` is left alone. -/
def execXorReg (x y : Reg) (s : State) : Result := writeRegNext x (s.readV x ^^^ s.readV y) s

/-- `8xy4` (R115). -/
def execAddReg (x y : Reg) (s : State) : Result :=
  writeRegFlagNext x (s.readV x + s.readV y) (carryOut (s.readV x) (s.readV y)) s

/-- `8xy5` (R116). -/
def execSubReg (x y : Reg) (s : State) : Result :=
  writeRegFlagNext x (s.readV x - s.readV y) (noBorrow (s.readV x) (s.readV y)) s

/-- `8xy6` (R117): in place; the field `y` is ignored (R70). -/
def execShr (x _y : Reg) (s : State) : Result := writeRegFlagNext x (s.readV x >>> 1) (lowBitOut (s.readV x)) s

/-- `8xy7` (R118). -/
def execSubnReg (x y : Reg) (s : State) : Result :=
  writeRegFlagNext x (s.readV y - s.readV x) (noBorrow (s.readV y) (s.readV x)) s

/-- `8xyE` (R119): in place; the field `y` is ignored (R70). -/
def execShl (x _y : Reg) (s : State) : Result := writeRegFlagNext x (s.readV x <<< 1) (highBitOut (s.readV x)) s

end Sys2Proof.Machine
end

