-- ==== Sys2Proof/Machine/Display.lean ====
section
/-! DEFINITION. Display and the sprite collision detector (spec/44_display.md): `00E0`, `Dxyn`. -/

namespace Sys2Proof.Machine

/-- `fb[px, py]`: element `px + py * 64` of the row-major array (R29, R125). -/
def pixel (fb : Framebuffer) (px : Fin 64) (py : Fin 32) : Bool := (fb.get py).getLsbD px.val

/-- `fb[px, py] <- fb[px, py] XOR bit` (R127). -/
def xorPixel (fb : Framebuffer) (px : Fin 64) (py : Fin 32) (bit : Bool) : Framebuffer :=
  fb.set py.val (fb.get py ^^^ (BitVec.setWidth 64 (BitVec.ofBool bit) <<< px.val)) py.isLt

/-- The clear screen (R126). -/
def clearFb : Framebuffer := Vector.replicate 32 0

/-- A picture with the collision found so far (R127). -/
structure Drawing where
  /-- The framebuffer as drawn so far. -/
  fb : Framebuffer
  /-- A sprite bit 1 has met a set pixel. -/
  collision : Bool
deriving DecidableEq, Repr

/-- Draw pixel `p` of a row: column `vx + p` without wrap, dropped when it is not on the screen (R127). -/
def drawPixel (vx : Nat) (py : Fin 32) (b : Byte) (d : Drawing) (p : Nat) : Drawing :=
  if h : vx + p < 64 then
    { fb := xorPixel d.fb ⟨vx + p, h⟩ py (spriteBit b p)
      collision := d.collision || (pixel d.fb ⟨vx + p, h⟩ py && spriteBit b p) }
  else d

/-- Draw the eight pixels of a row, left to right (R127). -/
def drawRow (vx : Nat) (py : Fin 32) (b : Byte) (d : Drawing) : Drawing :=
  (List.range 8).foldl (drawPixel vx py b) d

/-- Draw a sprite's rows from row `py` down, without wrap; a row that is not on the screen is dropped whole (R127). -/
def drawRows (vx py : Nat) : List Byte → Drawing → Drawing
  | [], d => d
  | b :: bs, d => drawRows vx (py + 1) bs (if h : py < 32 then drawRow vx ⟨py, h⟩ b d else d)

/-- `00E0` (R126): `VF` is not written. -/
def execCls (s : State) : Result := .next (s.setFb clearFb).advance

/-- `Dxyn` (R127): the coordinates are read once, before `VF` is touched, and the flag is written last (decision D5); the
bounds of all `n` bytes are checked first, rows that are clipped away included (decision D22). -/
def execDrw (x y : Reg) (n : Nat) (s : State) : Result :=
  checked (checkRange .dataRead s.I n) fun _ =>
    let d := drawRows (s.readV x).toNat (s.readV y).toNat (s.readBytes s.I.toNat n) ⟨s.fb, false⟩
    .next ((s.setFb d.fb).writeFlag d.collision).advance

end Sys2Proof.Machine
end

