-- ==== Sys2Proof/Machine/Flow.lean ====
section
/-! DEFINITION. Jumps, call and return (spec/40_flow.md): `00EE`, `1nnn`, `2nnn`, `Bnnn`. Targets are not checked when the
jump executes (R80). -/

namespace Sys2Proof.Machine

/-- `00EE` (R81): the popped entry is the address of the call, and 2 is added to it. -/
def execRet (s : State) : Result := checked s.popPc fun (entry, t) => .next (t.setPc (entry + 2))

/-- `1nnn` (R82). -/
def execJp (nnn : Addr12) (s : State) : Result := .next (s.setPc (zextAddr nnn))

/-- `2nnn` (R83): the address of this instruction is pushed. -/
def execCall (nnn : Addr12) (s : State) : Result := checked s.pushPc fun t => .next (t.setPc (zextAddr nnn))

/-- `Bnnn` (R84): the register is always `V[0]`. -/
def execJpV0 (nnn : Addr12) (s : State) : Result := .next (s.setPc (zextAddr nnn + zextByte (s.readV 0)))

end Sys2Proof.Machine
end

