-- ==== Sys2Proof/Machine/IndexMemory.lean ====
section
/-! DEFINITION. Address register arithmetic, BCD, register dump and load (spec/47_index_memory.md): `Fx1E`, `Fx29`,
`Fx33`, `Fx55`, `Fx65`. The last three leave `I` as it is, and check the whole range before the first byte moves (R145). -/

namespace Sys2Proof.Machine

/-- `Fx1E` (R146): modulo 65536, no flag. -/
def execAddIVx (x : Reg) (s : State) : Result := .next (s.setI (s.I + zextByte (s.readV x))).advance

/-- `Fx29` (R147). -/
def execLdFVx (x : Reg) (s : State) : Result := .next (s.setI (glyphAddr (s.readV x))).advance

/-- `Fx33` (R148). -/
def execLdBVx (x : Reg) (s : State) : Result :=
  checked (checkRange .dataWrite s.I 3) fun _ => .next (s.writeBytes s.I.toNat (bcdDigits (s.readV x))).advance

/-- `Fx55` (R149): `x + 1` bytes, `V[k]` to address `I + k`. -/
def execStoreRegs (x : Reg) (s : State) : Result :=
  checked (checkRange .dataWrite s.I (x.val + 1)) fun _ => .next (s.writeBytes s.I.toNat (s.regsUpTo x)).advance

/-- `Fx65` (R150): `x + 1` bytes, address `I + k` to `V[k]`. -/
def execLoadRegs (x : Reg) (s : State) : Result :=
  checked (checkRange .dataRead s.I (x.val + 1)) fun _ =>
    .next (s.loadRegsFrom (s.readBytes s.I.toNat (x.val + 1))).advance

end Sys2Proof.Machine
end

