-- ==== Sys2Proof/Machine/Skip.lean ====
section
/-! DEFINITION. Conditional skips on registers (spec/41_skip.md): `3xnn`, `4xnn`, `5xy0`, `9xy0`. -/

namespace Sys2Proof.Machine

/-- Skip the next instruction when the condition holds: `pc + 4`, else `pc + 2` (R90). -/
def skipIf (c : Bool) (s : State) : Result := .next (s.setPc (s.pc + if c then 4 else 2))

/-- `3xnn` (R91). -/
def execSeImm (x : Reg) (nn : Byte) (s : State) : Result := skipIf (s.readV x == nn) s

/-- `4xnn` (R92). -/
def execSneImm (x : Reg) (nn : Byte) (s : State) : Result := skipIf (s.readV x != nn) s

/-- `5xy0` (R93). -/
def execSeReg (x y : Reg) (s : State) : Result := skipIf (s.readV x == s.readV y) s

/-- `9xy0` (R94). -/
def execSneReg (x y : Reg) (s : State) : Result := skipIf (s.readV x != s.readV y) s

end Sys2Proof.Machine
end

