-- ==== Sys2Proof/Machine/Keyboard.lean ====
section
/-! DEFINITION. Keyboard skips and the key wait (spec/45_keyboard.md): `Ex9E`, `ExA1`, `Fx0A`. -/

namespace Sys2Proof.Machine

/-- `Ex9E` (R131). -/
def execSkp (x : Reg) (s : State) : Result := checked (checkKey (s.readV x)) fun k => skipIf (s.key.get k) s

/-- `ExA1` (R132). -/
def execSknp (x : Reg) (s : State) : Result := checked (checkKey (s.readV x)) fun k => skipIf (!s.key.get k) s

/-- `Fx0A` (R133): while `Idle` it arms and stays; while `Armed` it stays until a key that was up in the snapshot is
down, then it stores the lowest such key, disarms and goes on. Every execution completes at once. -/
def execLdVxK (x : Reg) (s : State) : Result :=
  if s.kwArmed then
    match firstFreshKey s.kwSnap s.key with
    | none => .next s
    | some k => .next ((s.writeV x (BitVec.ofNat 8 k.val)).disarmKeyWait).advance
  else .next s.armKeyWait

end Sys2Proof.Machine
end

