-- ==== Sys2Proof/Machine/Timers.lean ====
section
/-! DEFINITION. Timer access (spec/46_timers.md): `Fx07`, `Fx15`, `Fx18`. The timers are plain bytes to the Executor; the
Timer Driver's counting is in Machine/External.lean (R140). -/

namespace Sys2Proof.Machine

/-- `Fx07` (R141). -/
def execLdVxDT (x : Reg) (s : State) : Result := writeRegNext x s.DT s

/-- `Fx15` (R142). -/
def execLdDTVx (x : Reg) (s : State) : Result := .next (s.setDT (s.readV x)).advance

/-- `Fx18` (R143). -/
def execLdSTVx (x : Reg) (s : State) : Result := .next (s.setST (s.readV x)).advance

end Sys2Proof.Machine
end

