-- ==== Sys2Proof/Machine/Fetch.lean ====
section
/-! DEFINITION. Fetching and decoding the instruction at the program counter (spec/30_encoding.md rule R64,
spec/20_memory.md rules R44 to R47, R55). -/

namespace Sys2Proof.Machine

/-- The two bytes at `a` as a big-endian word, read from memory at this moment: there is no prefetch (R44, R55). -/
def State.wordAt (s : State) (a : Nat) : Word := joinBytes (s.readByte a) (s.readByte (a + 1))

/-- Both bytes of the word at `a` lie in memory (R47). -/
def fetchable (a : Nat) : Bool := decide (a + 1 ≤ 0xFFF)

/-- The instruction at the program counter, or the fault of the fetch or of the decoder, in this order (R64, R165). Any
address inside memory is fetched from, odd or below 0x200 as well (R45, R46). -/
def State.fetchDecode (s : State) : Except Fault Instr :=
  if fetchable s.pc.toNat then
    match decodeWord (s.wordAt s.pc.toNat) with
    | some i => .ok i
    | none => .error (.unknownOpcode s.pc (s.wordAt s.pc.toNat))
  else .error (.addressOutOfRange .fetch s.pc.toNat)

/-- A word stored at the program counter, high byte first (R44); from a counter that no word can be fetched at, the
counter is put at 0x200 first. -/
def State.placeWord (s : State) (w : Word) : State :=
  let t := if fetchable s.pc.toNat then s else s.setPc 0x200
  t.writeBytes t.pc.toNat (bytesOfWord w)

end Sys2Proof.Machine
end

