-- ==== Sys2Proof/Machine/Step.lean ====
section
/-! DEFINITION. One step: fetch, decode and execute exactly one instruction (spec/30_encoding.md rule R64). -/

namespace Sys2Proof.Machine

/-- `step` (R64). It completes with the next state, or faults and changes nothing (R12, R166). -/
def step (s : State) : Host.Outcome State Fault Refusal := checked s.fetchDecode fun i => exec i s

/-- The state with the instruction word `w` stored where `step` fetches next; it stands for a load of a one-word program
(log entry 5). -/
def State.withFetchWord (s : State) (nbits w : Nat) : State := s.placeWord (tableWord nbits w)

end Sys2Proof.Machine
end

