-- ==== Sys2Proof/Machine/External.lean ====
section
/-! DEFINITION. The other agents' moves and the machine under a schedule of moves (spec/00_scope.md rules R9, R10;
spec/60_exceptions.md rules R170 to R175; spec/70_reset_and_hazards.md rules R190 to R197). A move happens between two
steps, never inside one. Any schedule is allowed (R10, R172, R175), so a claim about a program is a claim about every
list of moves. -/

namespace Sys2Proof.Machine

/-- A timer's tick: one less, and a zero stays zero (R171). -/
def tickDown (b : Byte) : Byte := if b = 0 then 0 else b - 1

/-- `timer_tick` (R171): both timers, and nothing else. -/
def State.timerTick (s : State) : State := { s with DT := tickDown s.DT, ST := tickDown s.ST }

/-- `keyboard_write(k)` (R174): the keyboard, and nothing else; any subset of keys may be held. -/
def State.keyboardWrite (s : State) (k : Keys) : State := { s with key := k }

/-- `init` (R190, R193): the reset state of this machine, from any state; its parameter `FONT` stays. The model's own draw
counter goes on, so that draws after an `init` are as free as those before it (log entry 1). -/
def State.init (s : State) : State := { State.resetWith s.font with draws := s.draws }

/-- `RomLoadError`, the failure of `load_rom`, never of a step (R163, R195). -/
inductive RomLoadError where
  /-- The host could not read its source (R195, the host's own failure). -/
  | unreadable
  /-- More than 3584 bytes (R195). -/
  | tooLong
deriving DecidableEq, Repr

/-- The bytes that a load may copy: the source was read and they fit (R195). -/
def checkRom : Option (List Byte) → Except RomLoadError (List Byte)
  | none => .error .unreadable
  | some bytes => if bytes.length ≤ 3584 then .ok bytes else .error .tooLong

/-- `load_rom(bytes)` (R194, R195): a full re-init; then, if the source was read and fits, the bytes at 0x200 and up and
their number in `rom_size`. `none` is a source that could not be read. On failure the state is the reset state (D17). -/
def State.loadRom (s : State) (source : Option (List Byte)) : State :=
  match checkRom source with
  | .error _ => s.init
  | .ok bytes =>
    { s.init.writeBytes 0x200 bytes with romSize := Fin.ofNat 3585 bytes.length }

/-- One move of one agent (R9). -/
inductive Move where
  /-- The Executor's move. -/
  | step
  /-- The Timer Driver's move. -/
  | timerTick
  /-- The Input collaborator's move. -/
  | keyboardWrite (k : Keys)
  /-- The host resets the machine. -/
  | init
  /-- The host loads a ROM; `none` is a source it could not read. -/
  | loadRom (source : Option (List Byte))
deriving DecidableEq, Repr

/-- What a move reports to whoever made it (R12, R197). -/
inductive Report where
  /-- The move completed. -/
  | completed
  /-- The step faulted. -/
  | fault (f : Fault)
  /-- The step was refused (never, in this model). -/
  | refused (r : Refusal)
  /-- The load failed. -/
  | romLoadError (e : RomLoadError)
deriving DecidableEq, Repr

/-- A step's outcome as the driver sees it: a faulting step leaves the state as it was (R166). -/
def settle (s : State) : Result → State × Report
  | .next t => (t, .completed)
  | .fault f => (s, .fault f)
  | .refused r => (s, .refused r)

/-- The state after a move, and its report (R9). -/
def State.move (s : State) : Move → State × Report
  | .step => settle s (Sys2Proof.Machine.step s)
  | .timerTick => (s.timerTick, .completed)
  | .keyboardWrite k => (s.keyboardWrite k, .completed)
  | .init => (s.init, .completed)
  | .loadRom source =>
    (s.loadRom source, match checkRom source with | .error e => .romLoadError e | .ok _ => .completed)

/-- The state after a schedule of moves, made one after the other (R10). -/
def State.runMoves (s : State) : List Move → State
  | [] => s
  | m :: ms => State.runMoves (s.move m).1 ms

/-- The first report of a schedule that is not a completed move: a step's fault, kept beside the state since the machine has
no sticky fault of its own (R167, decision D11), or a failed load. DESIGN CHOICE (log entry 14): R181 says of a fault that a
run with it has gone wrong, and no rule says so of a `RomLoadError`, which R163 calls recoverable; here a failed load counts
as well, and when it comes first it is the answer in place of a later fault. -/
def State.firstTrouble (s : State) : List Move → Option Report
  | [] => none
  | m :: ms => if (s.move m).2 = .completed then State.firstTrouble (s.move m).1 ms else some (s.move m).2

end Sys2Proof.Machine
end

