-- ==== Sys2Proof/Machine/Inspect.lean ====
section
/-! DEFINITION. Inspection between steps (spec/60_exceptions.md rules R178, R179): reads that return a value and no
state, so they cannot change one. The text of `disassemble_at` is out of scope (spec/00_scope.md rule R4); what it renders
is here as data. -/

namespace Sys2Proof.Machine

/-- What `disassemble_at` renders: the address, the raw bytes and the operation (R179). DESIGN CHOICE (log entry 12): the
operation is `none` for an unknown word, whose rendering the spec leaves open. -/
structure Disassembled where
  /-- The address. -/
  address : Nat
  /-- The two raw bytes. -/
  bytes : List Byte
  /-- The decoded instruction. -/
  operation : Option Instr
deriving DecidableEq, Repr

/-- `disassemble_at(state, address)` for a valid address, with the field extraction of the Executor (R179). DESIGN CHOICE
(log entry 12): the spec does not say which addresses are valid nor what any other address gives; here an address is valid
when its two bytes lie in memory, 0x000 to 0xFFE, and every other address answers `none`. -/
def State.disassembleAt (s : State) (a : Nat) : Option Disassembled :=
  if fetchable a then some ⟨a, s.readBytes a 2, decodeWord (s.wordAt a)⟩ else none

/-- The address lies in the loaded program, `[0x200, 0x200 + rom_size)` (R26). The spec says only that the disassembler uses
`rom_size` to bound its iteration (R33, R179). DESIGN CHOICE (log entry 12): where the iteration starts, its stride and
whether the last byte of a program of odd length counts are open; here the bound is this test of one address, which counts
that byte, and the model makes no iteration. -/
def State.inProgram (s : State) (a : Nat) : Bool :=
  decide (0x200 ≤ a ∧ a < 0x200 + s.romSize.val)

end Sys2Proof.Machine
end

