-- ==== Sys2Proof/Safety.lean ====
section
/-! DEFINITION. What counts as a safe run, the invariants, and the predicates over states that claims are stated with. -/

namespace Sys2Proof.Machine

/-- A safe run: no step of the schedule faults (a run that holds a fault has gone wrong, R181) and no load fails. That a
failed load makes a run unsafe is the model's DESIGN CHOICE (log entry 14): the spec leaves it open (R163, R181). -/
def State.SafeRun (s : State) (ms : List Move) : Prop := s.firstTrouble ms = none

/-- The run has ended: the instruction at `pc` is a jump to itself (R13, R207). -/
def State.Ended (s : State) : Prop := ∃ nnn : Addr12, s.fetchDecode = .ok (.jp nnn) ∧ nnn.toNat = s.pc.toNat

/-- The state that R190 describes, field by field, `FONT` being the machine's own. -/
def State.IsReset (t : State) : Prop :=
  (∀ r, t.V.get r = 0) ∧ t.I = 0 ∧ t.pc = 0x0200 ∧ t.sp.val = 0 ∧ (∀ k, t.stack.get k = 0) ∧
  (∀ px py, pixel t.fb px py = false) ∧ t.DT = 0 ∧ t.ST = 0 ∧ (∀ k, t.key.get k = false) ∧ t.romSize.val = 0 ∧
  t.kwArmed = false ∧ (∀ k, t.kwSnap.get k = false) ∧
  (∀ a, a ≤ 0x04F → t.readByte a = t.font.toList.getD a 0) ∧ (∀ a, 0x050 ≤ a → a ≤ 0xFFF → t.readByte a = 0x00)

/-- Memory is in its canonical form. -/
def State.MemoryCanonical (s : State) : Prop := Memory.wf s.font s.memory

/-- Whenever the key wait is armed, the instruction at `pc` is an `Fx0A` (R134). -/
def State.KeyWaitAtPc (s : State) : Prop := s.kwArmed = true → ∃ x, s.fetchDecode = .ok (.ldVxK x)

/-- The program counter stays where it cannot wrap: at most 0x10FE, and every stack entry holds an address that an
instruction was fetched from, at most 0xFFE (R25, R81). -/
def State.PcBounded (s : State) : Prop := s.pc.toNat ≤ 0x10FE ∧ ∀ k, (s.stack.get k).toNat ≤ 0xFFE

/-- `Dxyn` in this state puts a sprite bit 1 over the pixel (`px`, `py`): row `py - V[y]` of the sprite at `I` has it in
column `px - V[x]`, bit 7 of a row the leftmost (R125, R127). -/
def State.spriteOver (s : State) (x y : Reg) (n : Nat) (px : Fin 64) (py : Fin 32) : Bool :=
  decide ((s.V.get y).toNat ≤ py.val ∧ py.val < (s.V.get y).toNat + n ∧
    (s.V.get x).toNat ≤ px.val ∧ px.val < (s.V.get x).toNat + 8) &&
  (s.readByte (s.I.toNat + (py.val - (s.V.get y).toNat))).getLsbD (7 - (px.val - (s.V.get x).toNat))

/-- The flag writers, exactly these six patterns (R22). -/
def writesFlag : Instr → Bool
  | .addReg _ _ | .subReg _ _ | .subnReg _ _ | .shr _ _ | .shl _ _ | .drw _ _ _ => true
  | .cls | .ret | .jp _ | .call _ | .seImm _ _ | .sneImm _ _ | .seReg _ _ | .ldImm _ _ | .addImm _ _ => false
  | .ldReg _ _ | .orReg _ _ | .andReg _ _ | .xorReg _ _ | .sneReg _ _ | .ldI _ | .jpV0 _ | .rnd _ _ => false
  | .skp _ | .sknp _ | .ldVxDT _ | .ldVxK _ | .ldDTVx _ | .ldSTVx _ | .addIVx _ | .ldFVx _ | .ldBVx _ => false
  | .storeRegs _ | .loadRegs _ => false

/-- The general registers an instruction may write as data: column `Vx` of the access matrix (R37). -/
def writesReg (q : Reg) : Instr → Bool
  | .ldImm x _ | .addImm x _ | .ldReg x _ | .orReg x _ | .andReg x _ | .xorReg x _ => q == x
  | .addReg x _ | .subReg x _ | .shr x _ | .subnReg x _ | .shl x _ | .rnd x _ | .ldVxDT x | .ldVxK x => q == x
  | .loadRegs x => decide (q ≤ x)
  | .cls | .ret | .jp _ | .call _ | .seImm _ _ | .sneImm _ _ | .seReg _ _ | .sneReg _ _ | .ldI _ | .jpV0 _ => false
  | .drw _ _ _ | .skp _ | .sknp _ | .ldDTVx _ | .ldSTVx _ | .addIVx _ | .ldFVx _ | .ldBVx _ | .storeRegs _ => false

end Sys2Proof.Machine
end

