-- ==== Sys2Proof/Certificates/Slice0/Obligations.lean ====
section
/-! DEFINITION. The statements for the provers, from the numbered rules of spec/. A result statement writes the next state
as the old one with the changed fields, so it is the instruction's completion and its frame as well. -/

open Sys2Proof Sys2Proof.Machine

/-! ### Encoding -/

/-- Words written out from the opcode table's encodings (R66), one for each group of the map. -/
def Obligations.WrittenOutWordsDecode : Prop :=
  decodeWord 0b0000000011100000 = some .cls ∧
  decodeWord 0b0000000011101110 = some .ret ∧
  decodeWord 0b0001001000000100 = some (.jp 0x204) ∧
  decodeWord 0b0101001101000000 = some (.seReg 3 4) ∧
  decodeWord 0b0110101000111100 = some (.ldImm 10 0x3C) ∧
  decodeWord 0b1000001001110110 = some (.shr 2 7) ∧
  decodeWord 0b1101000000010101 = some (.drw 0 1 5) ∧
  decodeWord 0b1110000110011110 = some (.skp 1) ∧
  decodeWord 0b1111000101010101 = some (.storeRegs 1)

/-- R66, row by row: the four digits of a pattern, the most significant first, with every value of its fields, decode to
the row's instruction with those fields. -/
def Obligations.EveryPatternDecodesWithItsFields : Prop :=
  ∀ (x y n : Nibble) (nn : Byte) (nnn : Addr12),
    decodeWord (0x0#4 ++ 0x0#4 ++ 0xE#4 ++ 0x0#4) = some .cls ∧ decodeWord (0x0#4 ++ 0x0#4 ++ 0xE#4 ++ 0xE#4) = some .ret ∧
    decodeWord (0x1#4 ++ nnn) = some (.jp nnn) ∧
    decodeWord (0x2#4 ++ nnn) = some (.call nnn) ∧
    decodeWord (0x3#4 ++ x ++ nn) = some (.seImm x.toFin nn) ∧
    decodeWord (0x4#4 ++ x ++ nn) = some (.sneImm x.toFin nn) ∧
    decodeWord (0x5#4 ++ x ++ y ++ 0x0#4) = some (.seReg x.toFin y.toFin) ∧
    decodeWord (0x6#4 ++ x ++ nn) = some (.ldImm x.toFin nn) ∧
    decodeWord (0x7#4 ++ x ++ nn) = some (.addImm x.toFin nn) ∧
    decodeWord (0x8#4 ++ x ++ y ++ 0x0#4) = some (.ldReg x.toFin y.toFin) ∧
    decodeWord (0x8#4 ++ x ++ y ++ 0x1#4) = some (.orReg x.toFin y.toFin) ∧
    decodeWord (0x8#4 ++ x ++ y ++ 0x2#4) = some (.andReg x.toFin y.toFin) ∧
    decodeWord (0x8#4 ++ x ++ y ++ 0x3#4) = some (.xorReg x.toFin y.toFin) ∧
    decodeWord (0x8#4 ++ x ++ y ++ 0x4#4) = some (.addReg x.toFin y.toFin) ∧
    decodeWord (0x8#4 ++ x ++ y ++ 0x5#4) = some (.subReg x.toFin y.toFin) ∧
    decodeWord (0x8#4 ++ x ++ y ++ 0x6#4) = some (.shr x.toFin y.toFin) ∧
    decodeWord (0x8#4 ++ x ++ y ++ 0x7#4) = some (.subnReg x.toFin y.toFin) ∧
    decodeWord (0x8#4 ++ x ++ y ++ 0xE#4) = some (.shl x.toFin y.toFin) ∧
    decodeWord (0x9#4 ++ x ++ y ++ 0x0#4) = some (.sneReg x.toFin y.toFin) ∧
    decodeWord (0xA#4 ++ nnn) = some (.ldI nnn) ∧
    decodeWord (0xB#4 ++ nnn) = some (.jpV0 nnn) ∧
    decodeWord (0xC#4 ++ x ++ nn) = some (.rnd x.toFin nn) ∧
    decodeWord (0xD#4 ++ x ++ y ++ n) = some (.drw x.toFin y.toFin n.toNat) ∧
    decodeWord (0xE#4 ++ x ++ 0x9E#8) = some (.skp x.toFin) ∧
    decodeWord (0xE#4 ++ x ++ 0xA1#8) = some (.sknp x.toFin) ∧
    decodeWord (0xF#4 ++ x ++ 0x07#8) = some (.ldVxDT x.toFin) ∧
    decodeWord (0xF#4 ++ x ++ 0x0A#8) = some (.ldVxK x.toFin) ∧
    decodeWord (0xF#4 ++ x ++ 0x15#8) = some (.ldDTVx x.toFin) ∧
    decodeWord (0xF#4 ++ x ++ 0x18#8) = some (.ldSTVx x.toFin) ∧
    decodeWord (0xF#4 ++ x ++ 0x1E#8) = some (.addIVx x.toFin) ∧
    decodeWord (0xF#4 ++ x ++ 0x29#8) = some (.ldFVx x.toFin) ∧
    decodeWord (0xF#4 ++ x ++ 0x33#8) = some (.ldBVx x.toFin) ∧
    decodeWord (0xF#4 ++ x ++ 0x55#8) = some (.storeRegs x.toFin) ∧
    decodeWord (0xF#4 ++ x ++ 0x65#8) = some (.loadRegs x.toFin)

/-- Decoding the bytes of a well-formed instruction gives it back with the bytes after it (R44, R60, R61, R66). -/
def Obligations.DecodeGivesBackEncodedInstruction : Prop :=
  ∀ (i : Instr) (rest : List Byte), i.wellFormed = true →
    decode (bytesOfWord (encode i) ++ rest) = .ok (i, rest)

/-- Bytes that decode are the encoding of the instruction they decode to, followed by the rest: no bit of a word is
dropped. That near misses such as `5121` do not decode is the spec's decision D8 (log entry 10); that the constructors of
`8xy6` and `8xyE` keep the ignored field (R70) is the model's choice (log entry 4). -/
def Obligations.DecodedBytesAreTheEncoding : Prop :=
  ∀ (bytes rest : List Byte) (i : Instr), decode bytes = .ok (i, rest) →
    i.wellFormed = true ∧ bytes = bytesOfWord (encode i) ++ rest

/-- The unknown words are exactly those that R69 lists by group. -/
def Obligations.UnknownWordsByGroup : Prop :=
  ∀ w : Word,
    let op : Nibble := w.extractLsb' 12 4
    let n : Nibble := w.extractLsb' 0 4
    let nn : Byte := w.extractLsb' 0 8
    decodeWord w = none ↔
      (op = 0x0 ∧ w ≠ 0x00E0 ∧ w ≠ 0x00EE) ∨ (op = 0x5 ∧ n ≠ 0x0) ∨
      (op = 0x8 ∧ (n = 0x8 ∨ n = 0x9 ∨ n = 0xA ∨ n = 0xB ∨ n = 0xC ∨ n = 0xD ∨ n = 0xF)) ∨
      (op = 0x9 ∧ n ≠ 0x0) ∨ (op = 0xE ∧ nn ≠ 0x9E ∧ nn ≠ 0xA1) ∨
      (op = 0xF ∧ nn ≠ 0x07 ∧ nn ≠ 0x0A ∧ nn ≠ 0x15 ∧ nn ≠ 0x18 ∧ nn ≠ 0x1E ∧ nn ≠ 0x29 ∧ nn ≠ 0x33 ∧ nn ≠ 0x55 ∧
        nn ≠ 0x65)

/-! ### The step -/

/-- R64: a fetch past memory faults; else the big-endian word at `pc` is decoded, an unknown word faults, and an
instruction is executed on this very state. The fetch fault is the spec's decision D1 and the order of the checks its D10
(log entry 7); that odd and low counters are fetched from are its D2 and D3 (log entry 13). -/
def Obligations.StepFetchesDecodesExecutes : Prop :=
  ∀ s : State,
    (0xFFF < s.pc.toNat + 1 → step s = .fault (.addressOutOfRange .fetch s.pc.toNat)) ∧
    (s.pc.toNat + 1 ≤ 0xFFF →
      let w : Word := (s.readByte s.pc.toNat).setWidth 16 <<< 8 ||| (s.readByte (s.pc.toNat + 1)).setWidth 16
      (∀ i, decodeWord w = some i → step s = exec i s) ∧
      (decodeWord w = none → step s = .fault (.unknownOpcode s.pc w)))

/-- R12: a step completes with the next state or faults and leaves the state unchanged; there is no third outcome. That a
faulting step leaves the state unchanged is the spec's decision D4 (R166, log entry 7). -/
def Obligations.StepCompletesOrFaultsUnchanged : Prop :=
  ∀ s : State,
    (∃ t, step s = .next t ∧ s.move .step = (t, .completed)) ∨
    (∃ f, step s = .fault f ∧ s.move .step = (s, .fault f))

/-- The faults of execution are exactly those of R160's table. The faulting conditions on memory, stack and key index are
the spec's decisions D1, D6 and D22. -/
def Obligations.ExecutionFaultsAreExactlyThese : Prop :=
  ∀ (i : Instr) (s : State) (f : Fault), exec i s = .fault f ↔
    (∃ nnn, i = .call nnn ∧ s.sp.val = 16 ∧ f = .addressOutOfRange .stackPush 16) ∨
    (i = .ret ∧ s.sp.val = 0 ∧ f = .addressOutOfRange .stackPop 0) ∨
    (∃ x y n, i = .drw x y n ∧ 0 < n ∧ 0xFFF < s.I.toNat + n - 1 ∧ f = .addressOutOfRange .dataRead s.I.toNat) ∨
    (∃ x, (i = .skp x ∨ i = .sknp x) ∧ 15 < (s.V.get x).toNat ∧
      f = .addressOutOfRange .keyIndex (s.V.get x).toNat) ∨
    (∃ x, i = .ldBVx x ∧ 0xFFF < s.I.toNat + 2 ∧ f = .addressOutOfRange .dataWrite s.I.toNat) ∨
    (∃ x, i = .storeRegs x ∧ 0xFFF < s.I.toNat + x.val ∧ f = .addressOutOfRange .dataWrite s.I.toNat) ∨
    (∃ x, i = .loadRegs x ∧ 0xFFF < s.I.toNat + x.val ∧ f = .addressOutOfRange .dataRead s.I.toNat)

/-- A faulted machine raises the same fault again whatever steps, timer ticks and keyboard writes follow: only the host's
`init` or `load_rom` can help (R167, which the spec marks as derived; decision D11). -/
def Obligations.FaultRepeatsUntilHostResets : Prop :=
  ∀ (s : State) (f : Fault) (ms : List Move), step s = .fault f →
    (∀ m ∈ ms, m = .step ∨ m = .timerTick ∨ ∃ k, m = .keyboardWrite k) →
    step (s.runMoves ms) = .fault f

/-- A run that has ended stays where it is: the self-jump is a fixed point of the whole state (R13, R82). -/
def Obligations.EndedRunIsFixedPoint : Prop :=
  ∀ s : State, s.Ended → step s = .next s

/-! ### Reset, load and the other agents -/

/-- R190: after reset, whatever table the parameter `FONT` of R5 is, and after `init` from any state, every field has the
value the rule gives; memory holds the machine's `FONT` and zeros. -/
def Obligations.InitGivesTheResetState : Prop :=
  (∀ font : Font, (State.resetWith font).IsReset ∧ (State.resetWith font).font = font) ∧
  (∀ s : State, s.init.IsReset ∧ s.init.font = s.font) ∧ State.reset = State.resetWith State.reset.font

/-- R194: a load re-inits, copies the bytes to 0x200 and up and records their number; everything else is as after `init`. -/
def Obligations.LoadRomCopiesBytes : Prop :=
  ∀ (s : State) (bytes : List Byte), bytes.length ≤ 3584 →
    ∃ t, s.move (.loadRom (some bytes)) = (t, .completed) ∧
      t = { s.init with memory := t.memory, romSize := t.romSize } ∧ t.romSize.val = bytes.length ∧
      (∀ k, k < bytes.length → t.readByte (0x200 + k) = bytes.getD k 0) ∧
      (∀ a, a < 0x200 ∨ 0x200 + bytes.length ≤ a → t.readByte a = s.init.readByte a)

/-- A load that cannot be read or is longer than 3584 bytes reports `RomLoadError` and leaves the reset state (R195;
that an oversized ROM copies nothing is the spec's decision D17). -/
def Obligations.FailedLoadLeavesResetState : Prop :=
  ∀ (s : State) (source : Option (List Byte)), (∀ bytes, source = some bytes → 3584 < bytes.length) →
    ∃ t e, s.move (.loadRom source) = (t, .romLoadError e) ∧ t.IsReset ∧ t.font = s.font

/-- R171: each timer that is non-zero goes down by one, one that is zero stays zero, and nothing else is written. -/
def Obligations.TimerTickDecrementsBothTimers : Prop :=
  ∀ s : State, ∃ t, s.move .timerTick = (t, .completed) ∧ t = { s with DT := t.DT, ST := t.ST } ∧
    t.DT.toNat = s.DT.toNat - 1 ∧ t.ST.toNat = s.ST.toNat - 1

/-- R174: the keyboard is replaced, and nothing else is written, the key-wait state included. -/
def Obligations.KeyboardWriteReplacesKeysOnly : Prop :=
  ∀ (s : State) (k : Keys), ∃ t, s.move (.keyboardWrite k) = (t, .completed) ∧ t = { s with key := t.key } ∧
    ∀ j, t.key.get j = k.get j

/-! ### Jumps, call and return -/

/-- `1nnn`: `pc` is the target and nothing else changes; a jump to its own address changes nothing (R82). -/
def Obligations.JumpSetsProgramCounter : Prop :=
  ∀ (nnn : Addr12) (s : State), ∃ t, exec (.jp nnn) s = .next t ∧ t = { s with pc := t.pc } ∧
    t.pc.toNat = nnn.toNat ∧ (nnn.toNat = s.pc.toNat → t = s)

/-- `2nnn`: the call's own address is pushed (R83); a full stack faults by the spec's decision D1. -/
def Obligations.CallPushesItsOwnAddress : Prop :=
  ∀ (nnn : Addr12) (s : State),
    (s.sp.val < 16 → ∃ t, exec (.call nnn) s = .next t ∧
      t = { s with stack := t.stack, sp := t.sp, pc := t.pc } ∧ t.pc.toNat = nnn.toNat ∧
      t.sp.val = s.sp.val + 1 ∧ ∀ k, t.stack.get k = if k.val = s.sp.val then s.pc else s.stack.get k) ∧
    (s.sp.val = 16 → exec (.call nnn) s = .fault (.addressOutOfRange .stackPush 16))

/-- `00EE`: resumes two past the popped call address, which is not erased (R81); an empty stack faults by the spec's
decision D1. -/
def Obligations.ReturnResumesAfterTheCall : Prop :=
  ∀ s : State,
    (∀ k : Fin 16, s.sp.val = k.val + 1 → ∃ t, exec .ret s = .next t ∧ t = { s with sp := t.sp, pc := t.pc } ∧
      t.sp.val = k.val ∧ t.pc = s.stack.get k + 2) ∧
    (s.sp.val = 0 → exec .ret s = .fault (.addressOutOfRange .stackPop 0))

/-- `Bnnn`: `pc` is the exact sum of `nnn` and `V[0]`, and nothing else changes (R84). -/
def Obligations.JumpWithOffsetAddsV0 : Prop :=
  ∀ (nnn : Addr12) (s : State), ∃ t, exec (.jpV0 nnn) s = .next t ∧ t = { s with pc := t.pc } ∧
    t.pc.toNat = nnn.toNat + (s.V.get 0).toNat

/-- A call and a return right after it resume at the instruction after the call with the stack pointer as before; only
the entry that was pushed differs (R81, R83). -/
def Obligations.CallThenReturnRoundTrip : Prop :=
  ∀ (nnn : Addr12) (s : State), s.sp.val < 16 →
    ∃ t u, exec (.call nnn) s = .next t ∧ exec .ret t = .next u ∧
      u = { s with stack := u.stack, pc := s.pc + 2 } ∧ ∀ k : Fin 16, k.val ≠ s.sp.val → u.stack.get k = s.stack.get k

/-! ### Skips -/

/-- `3xnn`, `4xnn`, `5xy0`, `9xy0`: `pc + 4` when the condition holds, else `pc + 2`, and nothing else changes (R91 to
R94). -/
def Obligations.RegisterSkipsSetProgramCounter : Prop :=
  ∀ (x y : Reg) (nn : Byte) (s : State),
    exec (.seImm x nn) s = .next { s with pc := if s.V.get x = nn then s.pc + 4 else s.pc + 2 } ∧
    exec (.sneImm x nn) s = .next { s with pc := if s.V.get x ≠ nn then s.pc + 4 else s.pc + 2 } ∧
    exec (.seReg x y) s = .next { s with pc := if s.V.get x = s.V.get y then s.pc + 4 else s.pc + 2 } ∧
    exec (.sneReg x y) s = .next { s with pc := if s.V.get x ≠ s.V.get y then s.pc + 4 else s.pc + 2 }

/-! ### Immediates and random -/

/-- `6xnn`: the register is `nn`, every other register keeps its value (R101). -/
def Obligations.LoadImmediateWritesRegister : Prop :=
  ∀ (x : Reg) (nn : Byte) (s : State), ∃ t, exec (.ldImm x nn) s = .next t ∧
    t = { s with V := t.V, pc := s.pc + 2 } ∧ ∀ q, t.V.get q = if q = x then nn else s.V.get q

/-- `7xnn`: the register is the sum modulo 256 and no flag is written (R102). -/
def Obligations.AddImmediateWrapsWithoutFlag : Prop :=
  ∀ (x : Reg) (nn : Byte) (s : State), ∃ t, exec (.addImm x nn) s = .next t ∧
    t = { s with V := t.V, pc := s.pc + 2 } ∧ (t.V.get x).toNat = ((s.V.get x).toNat + nn.toNat) % 256 ∧
    ∀ q, q ≠ x → t.V.get q = s.V.get q

/-- `Annn`: `I` is `nnn`, its high four bits 0 (R103). -/
def Obligations.LoadAddressRegister : Prop :=
  ∀ (nnn : Addr12) (s : State), ∃ t, exec (.ldI nnn) s = .next t ∧ t = { s with I := t.I, pc := s.pc + 2 } ∧
    t.I.toNat = nnn.toNat

/-- `Cxnn`: the register is `r mod (nn + 1)` for the free value `r` at the draw counter, which goes on by one, so it is at
most `nn` (R104; the free draw is the spec's decision D9). The free value and its counter are the model's own (log entry 1):
the statement holds for every value of both. -/
def Obligations.RandomIsAtMostItsLimit : Prop :=
  ∀ (x : Reg) (nn : Byte) (s : State), ∃ t, exec (.rnd x nn) s = .next t ∧
    t = { s with V := t.V, pc := s.pc + 2, draws := t.draws } ∧
    (t.V.get x).toNat = Config.random s.draws % (nn.toNat + 1) ∧ (t.V.get x).toNat ≤ nn.toNat ∧
    t.draws = s.draws + 1 ∧
    ∀ q, q ≠ x → t.V.get q = s.V.get q

/-! ### The ALU group -/

/-- `8xy0`: the register is a copy, and `VF` is written only as `x` (R111). -/
def Obligations.CopyRegister : Prop :=
  ∀ (x y : Reg) (s : State), ∃ t, exec (.ldReg x y) s = .next t ∧ t = { s with V := t.V, pc := s.pc + 2 } ∧
    ∀ q, t.V.get q = if q = x then s.V.get y else s.V.get q

/-- `8xy1`, `8xy2`, `8xy3`: bitwise OR, AND and XOR; `VF` is written only as `x` (R112, R113, R114). -/
def Obligations.BitwiseOperations : Prop :=
  ∀ (x y : Reg) (s : State),
    (∃ t, exec (.orReg x y) s = .next t ∧ t = { s with V := t.V, pc := s.pc + 2 } ∧
      ∀ q, t.V.get q = if q = x then s.V.get x ||| s.V.get y else s.V.get q) ∧
    (∃ t, exec (.andReg x y) s = .next t ∧ t = { s with V := t.V, pc := s.pc + 2 } ∧
      ∀ q, t.V.get q = if q = x then s.V.get x &&& s.V.get y else s.V.get q) ∧
    (∃ t, exec (.xorReg x y) s = .next t ∧ t = { s with V := t.V, pc := s.pc + 2 } ∧
      ∀ q, t.V.get q = if q = x then s.V.get x ^^^ s.V.get y else s.V.get q)

/-- `8xy4`: the sum modulo 256 and the carry out; the flag is written last and wins when `x` is 15 (R115, R110). -/
def Obligations.AddWritesSumThenCarry : Prop :=
  ∀ (x y : Reg) (s : State), ∃ t, exec (.addReg x y) s = .next t ∧ t = { s with V := t.V, pc := s.pc + 2 } ∧
    (t.V.get 15).toNat = (if 255 < (s.V.get x).toNat + (s.V.get y).toNat then 1 else 0) ∧
    (x ≠ 15 → (t.V.get x).toNat = ((s.V.get x).toNat + (s.V.get y).toNat) % 256) ∧
    ∀ q, q ≠ x → q ≠ 15 → t.V.get q = s.V.get q

/-- `8xy5`: the difference modulo 256 and the no-borrow flag, written last (R116, R110). -/
def Obligations.SubtractWritesDifferenceThenNoBorrow : Prop :=
  ∀ (x y : Reg) (s : State), ∃ t, exec (.subReg x y) s = .next t ∧ t = { s with V := t.V, pc := s.pc + 2 } ∧
    (t.V.get 15).toNat = (if (s.V.get x).toNat < (s.V.get y).toNat then 0 else 1) ∧
    (x ≠ 15 → (t.V.get x).toNat = (256 + (s.V.get x).toNat - (s.V.get y).toNat) % 256) ∧
    ∀ q, q ≠ x → q ≠ 15 → t.V.get q = s.V.get q

/-- `8xy7`: the reverse difference modulo 256 and its no-borrow flag, written last (R118, R110). -/
def Obligations.ReverseSubtractWritesDifferenceThenNoBorrow : Prop :=
  ∀ (x y : Reg) (s : State), ∃ t, exec (.subnReg x y) s = .next t ∧ t = { s with V := t.V, pc := s.pc + 2 } ∧
    (t.V.get 15).toNat = (if (s.V.get y).toNat < (s.V.get x).toNat then 0 else 1) ∧
    (x ≠ 15 → (t.V.get x).toNat = (256 + (s.V.get y).toNat - (s.V.get x).toNat) % 256) ∧
    ∀ q, q ≠ x → q ≠ 15 → t.V.get q = s.V.get q

/-- `8xy6`: half of `V[x]` in place and the low bit as flag, for every `y`, whose register is neither read nor written
(R117, R70). -/
def Obligations.ShiftRightInPlace : Prop :=
  ∀ (x y : Reg) (s : State), ∃ t, exec (.shr x y) s = .next t ∧ t = { s with V := t.V, pc := s.pc + 2 } ∧
    (t.V.get 15).toNat = (s.V.get x).toNat % 2 ∧
    (x ≠ 15 → (t.V.get x).toNat = (s.V.get x).toNat / 2) ∧
    ∀ q, q ≠ x → q ≠ 15 → t.V.get q = s.V.get q

/-- `8xyE`: double of `V[x]` modulo 256 in place and the high bit as flag, for every `y`, whose register is neither read
nor written (R119, R70). -/
def Obligations.ShiftLeftInPlace : Prop :=
  ∀ (x y : Reg) (s : State), ∃ t, exec (.shl x y) s = .next t ∧ t = { s with V := t.V, pc := s.pc + 2 } ∧
    (t.V.get 15).toNat = (s.V.get x).toNat / 128 ∧
    (x ≠ 15 → (t.V.get x).toNat = (2 * (s.V.get x).toNat) % 256) ∧
    ∀ q, q ≠ x → q ≠ 15 → t.V.get q = s.V.get q

/-! ### Display -/

/-- `00E0`: every pixel is 0 and nothing else changes, `VF` included (R126). -/
def Obligations.ClearDisplay : Prop :=
  ∀ s : State, ∃ t, exec .cls s = .next t ∧ t = { s with fb := t.fb, pc := s.pc + 2 } ∧
    ∀ px py, pixel t.fb px py = false

/-- `Dxyn`: every pixel of the screen under a sprite bit 1 is inverted and no other; `VF` is 1 when one of them was set
before and else 0; clipped pixels take no part (R127). That the coordinates are read before `VF` is written and that the
range check covers clipped rows are the spec's decisions D5 and D22, the fault is D1. -/
def Obligations.DrawInvertsPixelsAndReportsCollision : Prop :=
  ∀ (x y : Reg) (n : Nat) (s : State),
    (n = 0 ∨ s.I.toNat + n - 1 ≤ 0xFFF → ∃ t, exec (.drw x y n) s = .next t ∧
      t = { s with V := t.V, fb := t.fb, pc := s.pc + 2 } ∧
      (∀ px py, pixel t.fb px py = (pixel s.fb px py ^^ s.spriteOver x y n px py)) ∧
      (t.V.get 15 = if ∃ px py, pixel s.fb px py = true ∧ s.spriteOver x y n px py = true then 0x01 else 0x00) ∧
      ∀ q, q ≠ 15 → t.V.get q = s.V.get q) ∧
    (0 < n ∧ 0xFFF < s.I.toNat + n - 1 →
      exec (.drw x y n) s = .fault (.addressOutOfRange .dataRead s.I.toNat))

/-- Two identical draws in a row with the coordinates unchanged restore the framebuffer, and the second collides exactly
when a sprite bit 1 lay over a pixel that was clear before the first (R128, which the spec marks as derived). -/
def Obligations.DrawingTwiceRestoresTheScreen : Prop :=
  ∀ (x y : Reg) (n : Nat) (s t : State), exec (.drw x y n) s = .next t →
    t.V.get x = s.V.get x → t.V.get y = s.V.get y →
    ∃ u, exec (.drw x y n) t = .next u ∧ u.fb = s.fb ∧
      (u.V.get 15 = 0x01 ↔ ∃ px py, s.spriteOver x y n px py = true ∧ pixel s.fb px py = false)

/-! ### Keyboard -/

/-- `Ex9E` and `ExA1`: the whole byte of `V[x]` names the key; `pc + 4` when it is held (not held), else `pc + 2` (R131,
R132). That a value above 15 faults is the spec's decision D6. -/
def Obligations.KeySkipsTestOneKey : Prop :=
  ∀ (x : Reg) (s : State),
    (∀ k : Fin 16, (s.V.get x).toNat = k.val →
      exec (.skp x) s = .next { s with pc := if s.key.get k = true then s.pc + 4 else s.pc + 2 } ∧
      exec (.sknp x) s = .next { s with pc := if s.key.get k = false then s.pc + 4 else s.pc + 2 }) ∧
    (15 < (s.V.get x).toNat →
      exec (.skp x) s = .fault (.addressOutOfRange .keyIndex (s.V.get x).toNat) ∧
      exec (.sknp x) s = .fault (.addressOutOfRange .keyIndex (s.V.get x).toNat))

/-- `Fx0A`: while idle it takes the snapshot and arms; while armed it changes nothing until a key that is up in the
snapshot is down, and then it stores the lowest such key, disarms and goes on (R133). The lowest key and the kept
snapshot are the spec's decisions D7 and D21. -/
def Obligations.KeyWaitArmsWaitsResolves : Prop :=
  ∀ (x : Reg) (s : State),
    (s.kwArmed = false → exec (.ldVxK x) s = .next { s with kwArmed := true, kwSnap := s.key }) ∧
    (s.kwArmed = true → (∀ k, ¬ (s.kwSnap.get k = false ∧ s.key.get k = true)) → exec (.ldVxK x) s = .next s) ∧
    (s.kwArmed = true → ∀ k : Fin 16, s.kwSnap.get k = false → s.key.get k = true →
      (∀ j < k, ¬ (s.kwSnap.get j = false ∧ s.key.get j = true)) →
      ∃ t, exec (.ldVxK x) s = .next t ∧ t = { s with V := t.V, kwArmed := false, pc := s.pc + 2 } ∧
        (t.V.get x).toNat = k.val ∧ ∀ q, q ≠ x → t.V.get q = s.V.get q)

/-! ### Timers -/

/-- `Fx07`, `Fx15`, `Fx18`: the byte moves between the register and the timer, and nothing else changes (R141, R142,
R143). -/
def Obligations.TimerAccessMovesTheByte : Prop :=
  ∀ (x : Reg) (s : State),
    (∃ t, exec (.ldVxDT x) s = .next t ∧ t = { s with V := t.V, pc := s.pc + 2 } ∧
      ∀ q, t.V.get q = if q = x then s.DT else s.V.get q) ∧
    exec (.ldDTVx x) s = .next { s with DT := s.V.get x, pc := s.pc + 2 } ∧
    exec (.ldSTVx x) s = .next { s with ST := s.V.get x, pc := s.pc + 2 }

/-! ### Address register and memory -/

/-- `Fx1E`: `I` is the sum modulo 65536 and no flag is written (R146; the modulus is marked there as derived from R23, and
is the spec's decision D12, log entry 13). -/
def Obligations.AddToAddressRegisterWraps : Prop :=
  ∀ (x : Reg) (s : State), ∃ t, exec (.addIVx x) s = .next t ∧ t = { s with I := t.I, pc := s.pc + 2 } ∧
    t.I.toNat = (s.I.toNat + (s.V.get x).toNat) % 65536

/-- `Fx29`: `I` is five times the whole byte of `V[x]`, exactly (R147). -/
def Obligations.FontAddressIsFiveTimesTheByte : Prop :=
  ∀ (x : Reg) (s : State), ∃ t, exec (.ldFVx x) s = .next t ∧ t = { s with I := t.I, pc := s.pc + 2 } ∧
    t.I.toNat = 5 * (s.V.get x).toNat

/-- `Fx33`: the hundreds, tens and ones of `V[x]` at `I`, `I + 1`, `I + 2` and no other byte (R148). The fault past 0xFFF is
the spec's decision D1 (log entry 7); that `I` is left as it is is its D12 (R145, log entry 13). -/
def Obligations.BcdStoresThreeDigits : Prop :=
  ∀ (x : Reg) (s : State),
    (s.I.toNat + 2 ≤ 0xFFF → ∃ t, exec (.ldBVx x) s = .next t ∧ t = { s with memory := t.memory, pc := s.pc + 2 } ∧
      (t.readByte s.I.toNat).toNat = (s.V.get x).toNat / 100 ∧
      (t.readByte (s.I.toNat + 1)).toNat = (s.V.get x).toNat / 10 % 10 ∧
      (t.readByte (s.I.toNat + 2)).toNat = (s.V.get x).toNat % 10 ∧
      ∀ a, a < s.I.toNat ∨ s.I.toNat + 2 < a → t.readByte a = s.readByte a) ∧
    (0xFFF < s.I.toNat + 2 → exec (.ldBVx x) s = .fault (.addressOutOfRange .dataWrite s.I.toNat))

/-- `Fx55`: `V[k]` at `I + k` for `k` from 0 to `x` inclusive and no other byte (R149). The fault past 0xFFF is the spec's
decision D1 (log entry 7); that `I` is left as it is is its D12 (R145, log entry 13). -/
def Obligations.DumpStoresRegistersInOrder : Prop :=
  ∀ (x : Reg) (s : State),
    (s.I.toNat + x.val ≤ 0xFFF → ∃ t, exec (.storeRegs x) s = .next t ∧
      t = { s with memory := t.memory, pc := s.pc + 2 } ∧
      (∀ k : Reg, k ≤ x → t.readByte (s.I.toNat + k.val) = s.V.get k) ∧
      ∀ a, a < s.I.toNat ∨ s.I.toNat + x.val < a → t.readByte a = s.readByte a) ∧
    (0xFFF < s.I.toNat + x.val → exec (.storeRegs x) s = .fault (.addressOutOfRange .dataWrite s.I.toNat))

/-- `Fx65`: the byte at `I + k` in `V[k]` for `k` from 0 to `x` inclusive, registers above `x` and memory unchanged
(R150). The fault past 0xFFF is the spec's decision D1 (log entry 7); that `I` is left as it is is its D12 (R145, log entry
13). -/
def Obligations.LoadFillsRegistersInOrder : Prop :=
  ∀ (x : Reg) (s : State),
    (s.I.toNat + x.val ≤ 0xFFF → ∃ t, exec (.loadRegs x) s = .next t ∧ t = { s with V := t.V, pc := s.pc + 2 } ∧
      ∀ q, t.V.get q = if q ≤ x then s.readByte (s.I.toNat + q.val) else s.V.get q) ∧
    (0xFFF < s.I.toNat + x.val → exec (.loadRegs x) s = .fault (.addressOutOfRange .dataRead s.I.toNat))

/-- A dump and a load of the same registers right after it change no register, whatever the registers hold between: every
register of the range is reloaded from memory (R149, R150). It rests on `Fx55` leaving `I` as it is, the spec's decision D12
(R145, log entry 13). -/
def Obligations.DumpThenLoadRestoresRegisters : Prop :=
  ∀ (x : Reg) (s t t' : State), exec (.storeRegs x) s = .next t → t' = { t with V := t'.V } →
    ∃ u, exec (.loadRegs x) t' = .next u ∧ ∀ k : Reg, k ≤ x → u.V.get k = s.V.get k

/-- Self-modifying code needs no fence: an instruction that `Fx55` stores at the next address is the one the next step
runs (R55, which the spec marks as derived). -/
def Obligations.StoredInstructionRunsNext : Prop :=
  ∀ (x : Reg) (s t : State) (i : Instr), exec (.storeRegs x) s = .next t → 1 ≤ x.val →
    s.I.toNat = s.pc.toNat + 2 →
    decodeWord ((s.V.get 0).setWidth 16 <<< 8 ||| (s.V.get 1).setWidth 16) = some i → step t = exec i t

/-! ### What an instruction may change: rules about the whole machine -/

/-- Only `Fx33` and `Fx55` write memory, and only the bytes at `I` to `I + 2` and at `I` to `I + x` (R41, R37). -/
def Obligations.OnlyBcdAndDumpWriteMemory : Prop :=
  ∀ (i : Instr) (s t : State) (a : Nat), exec i s = .next t → t.readByte a ≠ s.readByte a →
    (∃ x, i = .ldBVx x ∧ s.I.toNat ≤ a ∧ a ≤ s.I.toNat + 2) ∨
    (∃ x, i = .storeRegs x ∧ s.I.toNat ≤ a ∧ a ≤ s.I.toNat + x.val)

/-- A general register changes only as a destination named by the access matrix or as the flag of a flag writer (R37,
R22). -/
def Obligations.OnlyDestinationsAndFlagChange : Prop :=
  ∀ (i : Instr) (s t : State) (q : Reg), exec i s = .next t → t.V.get q ≠ s.V.get q →
    writesReg q i = true ∨ (q = 15 ∧ writesFlag i = true)

/-- The flag writers leave 0x00 or 0x01 in `VF` (R22). -/
def Obligations.FlagWritersLeaveZeroOrOne : Prop :=
  ∀ (i : Instr) (s t : State), exec i s = .next t → writesFlag i = true → t.V.get 15 = 0x00 ∨ t.V.get 15 = 0x01

/-- The special registers and the two spaces beside memory change only by their own instructions: the stack by `2nnn`,
`sp` by `2nnn` and `00EE`, the framebuffer by `00E0` and `Dxyn`, `I` by `Annn`, `Fx1E` and `Fx29`, `DT` by `Fx15`, `ST` by
`Fx18`, the key-wait state by `Fx0A`, the keyboard and `rom_size` by none (R37, R23, R27, R29, R9). That `Fx33`, `Fx55` and
`Fx65` leave `I` as it is is the spec's decision D12 (R145, log entry 13). -/
def Obligations.SpecialStateChangesOnlyByItsInstructions : Prop :=
  ∀ (i : Instr) (s t : State), exec i s = .next t →
    (t.stack ≠ s.stack → ∃ nnn, i = .call nnn) ∧
    (t.sp ≠ s.sp → i = .ret ∨ ∃ nnn, i = .call nnn) ∧
    (t.fb ≠ s.fb → i = .cls ∨ ∃ x y n, i = .drw x y n) ∧
    (t.I ≠ s.I → (∃ nnn, i = .ldI nnn) ∨ (∃ x, i = .addIVx x) ∨ ∃ x, i = .ldFVx x) ∧
    (t.DT ≠ s.DT → ∃ x, i = .ldDTVx x) ∧ (t.ST ≠ s.ST → ∃ x, i = .ldSTVx x) ∧
    (t.kwArmed ≠ s.kwArmed ∨ t.kwSnap ≠ s.kwSnap → ∃ x, i = .ldVxK x) ∧
    t.key = s.key ∧ t.romSize = s.romSize

/-- What every instruction does to `pc`, complete (R67), by exact addition: from a state whose counter can be fetched at
and whose stack holds call addresses no sum wraps. -/
def Obligations.ProgramCounterAfterEachInstruction : Prop :=
  ∀ (i : Instr) (s t : State), s.pc.toNat ≤ 0xFFE → s.PcBounded → exec i s = .next t →
    (∀ nnn, i = .jp nnn ∨ i = .call nnn → t.pc.toNat = nnn.toNat) ∧
    (∀ nnn, i = .jpV0 nnn → t.pc.toNat = nnn.toNat + (s.V.get 0).toNat) ∧
    (i = .ret → ∃ k : Fin 16, s.sp.val = k.val + 1 ∧ t.pc.toNat = (s.stack.get k).toNat + 2) ∧
    (∀ x nn, i = .seImm x nn → t.pc.toNat = s.pc.toNat + if s.V.get x = nn then 4 else 2) ∧
    (∀ x nn, i = .sneImm x nn → t.pc.toNat = s.pc.toNat + if s.V.get x = nn then 2 else 4) ∧
    (∀ x y, i = .seReg x y → t.pc.toNat = s.pc.toNat + if s.V.get x = s.V.get y then 4 else 2) ∧
    (∀ x y, i = .sneReg x y → t.pc.toNat = s.pc.toNat + if s.V.get x = s.V.get y then 2 else 4) ∧
    (∀ x (k : Fin 16), (s.V.get x).toNat = k.val →
      (i = .skp x → t.pc.toNat = s.pc.toNat + if s.key.get k then 4 else 2) ∧
      (i = .sknp x → t.pc.toNat = s.pc.toNat + if s.key.get k then 2 else 4)) ∧
    (∀ x, i = .ldVxK x → t.pc.toNat =
      s.pc.toNat + if s.kwArmed = true ∧ ∃ k, s.kwSnap.get k = false ∧ s.key.get k = true then 2 else 0) ∧
    ((∀ nnn, i ≠ .jp nnn ∧ i ≠ .call nnn ∧ i ≠ .jpV0 nnn) → i ≠ .ret →
      (∀ x nn, i ≠ .seImm x nn ∧ i ≠ .sneImm x nn) → (∀ x y, i ≠ .seReg x y ∧ i ≠ .sneReg x y) →
      (∀ x, i ≠ .skp x ∧ i ≠ .sknp x ∧ i ≠ .ldVxK x) → t.pc.toNat = s.pc.toNat + 2)

/-! ### What an instruction may read

The two states compared have the same draw counter, so `Cxnn` draws the same free value in both (log entry 1). -/

/-- `rom_size` has no effect on execution (R33): a step of two states that differ in it alone gives states that differ in
it alone, or the same fault. -/
def Obligations.RomSizeHasNoEffect : Prop :=
  ∀ (s : State) (n : Fin 3585),
    (∀ t, step s = .next t → step { s with romSize := n } = .next { t with romSize := n }) ∧
    (∀ f, step s = .fault f → step { s with romSize := n } = .fault f)

/-- No instruction reads `ST` (R31): whatever `ST` holds, an `Fx18` gives the very same state, every other step does the
same and leaves `ST` as it is, and a fault is the same fault. -/
def Obligations.SoundTimerIsNeverRead : Prop :=
  ∀ (s : State) (b : Byte),
    (∀ t, step s = .next t →
      (∀ x, s.fetchDecode = .ok (.ldSTVx x) → step { s with ST := b } = .next t) ∧
      ((∀ x, s.fetchDecode ≠ .ok (.ldSTVx x)) → step { s with ST := b } = .next { t with ST := b })) ∧
    (∀ f, step s = .fault f → step { s with ST := b } = .fault f)

/-- The keyboard is read by `Ex9E`, `ExA1` and `Fx0A` alone (R32, R37): every other instruction does the same whatever
keys are held. -/
def Obligations.KeyboardReadOnlyByKeyInstructions : Prop :=
  ∀ (i : Instr) (s t : State) (k : Keys), (∀ x, i ≠ .skp x ∧ i ≠ .sknp x ∧ i ≠ .ldVxK x) →
    exec i s = .next t → exec i { s with key := k } = .next { t with key := k }

/-- `DT` is read by `Fx07` alone (R30, R37): every other instruction but `Fx15`, which replaces it, does the same whatever
`DT` holds and leaves it as it is. -/
def Obligations.DelayTimerReadOnlyByItsInstruction : Prop :=
  ∀ (i : Instr) (s t : State) (b : Byte), (∀ x, i ≠ .ldVxDT x ∧ i ≠ .ldDTVx x) →
    exec i s = .next t → exec i { s with DT := b } = .next { t with DT := b }

/-! ### Invariants -/

/-- The reset state meets the three invariants, whatever table the parameter `FONT` of R5 is. -/
def Obligations.ResetMeetsTheInvariants : Prop :=
  (∀ font : Font, (State.resetWith font).MemoryCanonical ∧ (State.resetWith font).KeyWaitAtPc ∧
    (State.resetWith font).PcBounded) ∧
  State.reset.MemoryCanonical ∧ State.reset.KeyWaitAtPc ∧ State.reset.PcBounded

/-- Every step, and every move of another agent, keeps the memory's canonical form, so that equal memories are equal data. -/
def Obligations.MemoryStaysCanonical : Prop :=
  (∀ s t : State, s.MemoryCanonical → step s = .next t → t.MemoryCanonical) ∧
  (∀ (s : State) (m : Move), s.MemoryCanonical → (s.move m).1.MemoryCanonical)

/-- Whenever the key wait is armed the instruction at `pc` is an `Fx0A`: kept by every step and by every move of another
agent (R134, which the spec marks as derived). -/
def Obligations.ArmedKeyWaitStaysAtItsInstruction : Prop :=
  (∀ s t : State, s.KeyWaitAtPc → step s = .next t → t.KeyWaitAtPc) ∧
  (∀ (s : State) (m : Move), s.KeyWaitAtPc → (s.move m).1.KeyWaitAtPc)

/-- The program counter never exceeds 0x10FE and never wraps, and the stack holds addresses that were fetched from: kept
by every step and by every move of another agent (R25, which the spec marks as derived). -/
def Obligations.ProgramCounterStaysBounded : Prop :=
  (∀ s t : State, s.PcBounded → step s = .next t → t.PcBounded) ∧
  (∀ (s : State) (m : Move), s.PcBounded → (s.move m).1.PcBounded)

/-! ### Field extraction -/

/-- R61: every 16-bit word has its fields, each the bits that the rule gives: `op` 15 to 12, `x` 11 to 8, `y` 7 to 4, `n` 3
to 0, `nn` 7 to 0, `nnn` 11 to 0. -/
def Obligations.FieldsAreTheBitsOfTheWord : Prop :=
  ∀ w : Word,
    (fieldsOf w).op.toNat = w.toNat / 0x1000 ∧ (fieldsOf w).x.val = w.toNat / 0x100 % 0x10 ∧
    (fieldsOf w).y.val = w.toNat / 0x10 % 0x10 ∧ (fieldsOf w).n.toNat = w.toNat % 0x10 ∧
    (fieldsOf w).nn.toNat = w.toNat % 0x100 ∧ (fieldsOf w).nnn.toNat = w.toNat % 0x1000

/-! ### The parameter FONT -/

/-- No instruction's semantics depends on the bytes of `FONT` (R192): a step sees the table through memory alone, so two
machines with different tables whose memories read alike step to states that differ in the table alone and read alike, or
to the same fault; and no move of any agent changes the table of a machine. The two states compared have the same draw
counter, so `Cxnn` draws the same free value in both (log entry 1). -/
def Obligations.FontIsSeenThroughMemoryAlone : Prop :=
  (∀ (s s' : State), s' = { s with font := s'.font, memory := s'.memory } → (∀ a, s'.readByte a = s.readByte a) →
    (∀ t, step s = .next t → ∃ t', step s' = .next t' ∧ t' = { t with font := s'.font, memory := t'.memory } ∧
      ∀ a, t'.readByte a = t.readByte a) ∧
    (∀ f, step s = .fault f → step s' = .fault f)) ∧
  (∀ (s : State) (m : Move), (s.move m).1.font = s.font)
end

