-- ==== Sys2Proof/Laws/Decode.lean ====
section
/-! SUPPORT. The laws of the decoder: what each format's fields and masked bits are, that no two rows of the opcode map
fit one word, and what a decoded word tells. -/

namespace Sys2Proof

/-! ### Bytes and words (R44) -/

@[simp] theorem getLsbD_fieldAt {k : Nat} (lo : Nat) (v : BitVec k) (i : Nat) :
    (fieldAt lo v).getLsbD i = (decide (i < 16 ∧ lo ≤ i) && v.getLsbD (i - lo)) := by
  by_cases h : lo ≤ i <;> by_cases h16 : i < 16 <;> simp [fieldAt, h, h16]

theorem joinBytes_bytesOfWord (w : Word) : joinBytes (w.extractLsb' 8 8) (w.extractLsb' 0 8) = w := by
  apply BitVec.eq_of_getLsbD_eq
  intro i hi
  simp only [joinBytes, BitVec.getLsbD_or, getLsbD_fieldAt, BitVec.getLsbD_extractLsb']
  interval_cases i <;> simp

/-! ### The fields of a format (R61, R62) -/

theorem nnn_formatNNN (op : Nibble) (nnn : Addr12) : (fieldsOf (formatNNN op nnn)).nnn = nnn := by
  apply BitVec.eq_of_getLsbD_eq
  intro i hi
  simp only [fieldsOf, formatNNN, BitVec.getLsbD_or, getLsbD_fieldAt, BitVec.getLsbD_extractLsb']
  interval_cases i <;> simp

theorem op_formatNNN (op : Nibble) (nnn : Addr12) : (fieldsOf (formatNNN op nnn)).op = op := by
  apply BitVec.eq_of_getLsbD_eq
  intro i hi
  simp only [fieldsOf, formatNNN, BitVec.getLsbD_or, getLsbD_fieldAt, BitVec.getLsbD_extractLsb']
  interval_cases i <;> simp

theorem op_formatXNN (op : Nibble) (x : Reg) (nn : Byte) : (fieldsOf (formatXNN op x nn)).op = op := by
  apply BitVec.eq_of_getLsbD_eq
  intro i hi
  simp only [fieldsOf, formatXNN, BitVec.getLsbD_or, getLsbD_fieldAt, BitVec.getLsbD_extractLsb']
  interval_cases i <;> simp

theorem op_formatXYN (op : Nibble) (x y : Reg) (n : Nibble) : (fieldsOf (formatXYN op x y n)).op = op := by
  apply BitVec.eq_of_getLsbD_eq
  intro i hi
  simp only [fieldsOf, formatXYN, BitVec.getLsbD_or, getLsbD_fieldAt, BitVec.getLsbD_extractLsb']
  interval_cases i <;> simp

theorem x_formatXNN (op : Nibble) (x : Reg) (nn : Byte) : (fieldsOf (formatXNN op x nn)).x = x := by
  suffices h : (formatXNN op x nn).extractLsb' 8 4 = BitVec.ofFin x from congrArg BitVec.toFin h
  apply BitVec.eq_of_getLsbD_eq
  intro i hi
  simp only [formatXNN, BitVec.getLsbD_or, getLsbD_fieldAt, BitVec.getLsbD_extractLsb']
  interval_cases i <;> simp

theorem nn_formatXNN (op : Nibble) (x : Reg) (nn : Byte) : (fieldsOf (formatXNN op x nn)).nn = nn := by
  apply BitVec.eq_of_getLsbD_eq
  intro i hi
  simp only [fieldsOf, formatXNN, BitVec.getLsbD_or, getLsbD_fieldAt, BitVec.getLsbD_extractLsb']
  interval_cases i <;> simp

theorem x_formatXYN (op : Nibble) (x y : Reg) (n : Nibble) : (fieldsOf (formatXYN op x y n)).x = x := by
  suffices h : (formatXYN op x y n).extractLsb' 8 4 = BitVec.ofFin x from congrArg BitVec.toFin h
  apply BitVec.eq_of_getLsbD_eq
  intro i hi
  simp only [formatXYN, BitVec.getLsbD_or, getLsbD_fieldAt, BitVec.getLsbD_extractLsb']
  interval_cases i <;> simp

theorem y_formatXYN (op : Nibble) (x y : Reg) (n : Nibble) : (fieldsOf (formatXYN op x y n)).y = y := by
  suffices h : (formatXYN op x y n).extractLsb' 4 4 = BitVec.ofFin y from congrArg BitVec.toFin h
  apply BitVec.eq_of_getLsbD_eq
  intro i hi
  simp only [formatXYN, BitVec.getLsbD_or, getLsbD_fieldAt, BitVec.getLsbD_extractLsb']
  interval_cases i <;> simp

theorem n_formatXYN (op : Nibble) (x y : Reg) (n : Nibble) : (fieldsOf (formatXYN op x y n)).n = n := by
  apply BitVec.eq_of_getLsbD_eq
  intro i hi
  simp only [fieldsOf, formatXYN, BitVec.getLsbD_or, getLsbD_fieldAt, BitVec.getLsbD_extractLsb']
  interval_cases i <;> simp

/-! ### The digits of a pattern, the most significant first (R62, R66) -/

theorem formatNNN_eq_append (op : Nibble) (nnn : Addr12) : (op ++ nnn : Word) = formatNNN op nnn := by
  apply BitVec.eq_of_getLsbD_eq
  intro i hi
  rw [BitVec.getLsbD_append]
  simp only [formatNNN, BitVec.getLsbD_or, getLsbD_fieldAt]
  interval_cases i <;> simp

theorem formatXNN_eq_append (op x : Nibble) (nn : Byte) : (op ++ x ++ nn : Word) = formatXNN op x.toFin nn := by
  apply BitVec.eq_of_getLsbD_eq
  intro i hi
  rw [BitVec.getLsbD_append, BitVec.getLsbD_append]
  simp only [formatXNN, BitVec.getLsbD_or, getLsbD_fieldAt]
  interval_cases i <;> simp

theorem formatXYN_eq_append (op x y n : Nibble) : (op ++ x ++ y ++ n : Word) = formatXYN op x.toFin y.toFin n := by
  apply BitVec.eq_of_getLsbD_eq
  intro i hi
  rw [BitVec.getLsbD_append, BitVec.getLsbD_append, BitVec.getLsbD_append]
  simp only [formatXYN, BitVec.getLsbD_or, getLsbD_fieldAt]
  interval_cases i <;> simp

/-! ### The bits that a row compares (R65) -/

theorem formatNNN_and_F000 (op : Nibble) (nnn : Addr12) : formatNNN op nnn &&& 0xF000 = formatNNN op 0 := by
  apply BitVec.eq_of_getLsbD_eq
  intro i hi
  simp only [formatNNN, BitVec.getLsbD_and, BitVec.getLsbD_or, getLsbD_fieldAt]
  interval_cases i <;> simp

theorem formatXNN_and_F000 (op : Nibble) (x : Reg) (nn : Byte) : formatXNN op x nn &&& 0xF000 = formatXNN op 0 0 := by
  apply BitVec.eq_of_getLsbD_eq
  intro i hi
  simp only [formatXNN, BitVec.getLsbD_and, BitVec.getLsbD_or, getLsbD_fieldAt]
  interval_cases i <;> simp

theorem formatXNN_and_F0FF (op : Nibble) (x : Reg) (nn : Byte) : formatXNN op x nn &&& 0xF0FF = formatXNN op 0 nn := by
  apply BitVec.eq_of_getLsbD_eq
  intro i hi
  simp only [formatXNN, BitVec.getLsbD_and, BitVec.getLsbD_or, getLsbD_fieldAt]
  interval_cases i <;> simp

theorem formatXYN_and_F000 (op : Nibble) (x y : Reg) (n : Nibble) :
    formatXYN op x y n &&& 0xF000 = formatXYN op 0 0 0 := by
  apply BitVec.eq_of_getLsbD_eq
  intro i hi
  simp only [formatXYN, BitVec.getLsbD_and, BitVec.getLsbD_or, getLsbD_fieldAt]
  interval_cases i <;> simp

theorem formatXYN_and_F00F (op : Nibble) (x y : Reg) (n : Nibble) :
    formatXYN op x y n &&& 0xF00F = formatXYN op 0 0 n := by
  apply BitVec.eq_of_getLsbD_eq
  intro i hi
  simp only [formatXYN, BitVec.getLsbD_and, BitVec.getLsbD_or, getLsbD_fieldAt]
  interval_cases i <;> simp

/-! ### At most one row fits a word (R65) -/

/-- Two rows compare a common bit and want it different. -/
def OpcodeRow.clash (r q : OpcodeRow) : Bool := r.mask &&& q.mask &&& (r.pattern ^^^ q.pattern) != 0

theorem OpcodeRow.not_both_fit (r q : OpcodeRow) (h : r.clash q = true) (w : Word) (hr : r.fits w = true) :
    q.fits w = false := by
  by_contra hq
  simp only [OpcodeRow.fits, beq_iff_eq, Bool.not_eq_false] at hr hq
  simp only [OpcodeRow.clash, bne_iff_ne, ne_eq] at h
  apply h
  rw [← hr, ← hq]
  apply BitVec.eq_of_getLsbD_eq
  intro i hi
  rw [show (0 : Word) = 0#16 from rfl, BitVec.getLsbD_zero, BitVec.getLsbD_and, BitVec.getLsbD_and, BitVec.getLsbD_xor, BitVec.getLsbD_and,
    BitVec.getLsbD_and]
  cases w.getLsbD i <;> cases r.mask.getLsbD i <;> cases q.mask.getLsbD i <;> rfl

/-- The patterns of the opcode map are pairwise disjoint (R65). -/
theorem opcodeTable_clash : opcodeTable.Pairwise fun r q => r.clash q = true := by decide

theorem find_of_clash (l : List OpcodeRow) (hl : l.Pairwise fun r q => r.clash q = true) (w : Word) (r : OpcodeRow)
    (hr : r ∈ l) (hw : r.fits w = true) : l.find? (·.fits w) = some r := by
  induction l with
  | nil => simp at hr
  | cons q rest ih =>
    obtain ⟨hq, hrest⟩ := List.pairwise_cons.mp hl
    obtain rfl | hr := List.mem_cons.mp hr
    · exact List.find?_cons_of_pos (p := fun p : OpcodeRow => p.fits w) hw
    · have hqw : ¬ (fun p : OpcodeRow => p.fits w) q = true := by
        intro h
        rw [q.not_both_fit r (hq r hr) w h] at hw
        exact absurd hw (by decide)
      rw [List.find?_cons_of_neg (p := fun p : OpcodeRow => p.fits w) hqw]
      exact ih hrest hr

/-- A word that a row fits decodes by that row (R64, R65). -/
theorem decodeWord_of_row (w : Word) (r : OpcodeRow) (hr : r ∈ opcodeTable) (hw : r.fits w = true) :
    decodeWord w = some (r.build (fieldsOf w)) := by
  rw [decodeWord, find_of_clash opcodeTable opcodeTable_clash w r hr hw]
  rfl

/-- A decoded word fits a row, and the instruction is that row's (R64). -/
theorem decodeWord_eq_some (w : Word) (i : Instr) :
    decodeWord w = some i ↔ ∃ r ∈ opcodeTable, r.fits w = true ∧ i = r.build (fieldsOf w) := by
  constructor
  · intro h
    obtain ⟨r, hr, hb⟩ := Option.map_eq_some_iff.mp h
    exact ⟨r, List.mem_of_find?_eq_some hr, List.find?_some (p := fun p : OpcodeRow => p.fits w) hr, hb.symm⟩
  · rintro ⟨r, hr, hw, rfl⟩
    exact decodeWord_of_row w r hr hw

/-- A word is unknown exactly when no row fits it (R68). -/
theorem decodeWord_eq_none (w : Word) : decodeWord w = none ↔ ∀ r ∈ opcodeTable, r.fits w = false := by
  simp [decodeWord, List.find?_eq_none]

end Sys2Proof
end

