-- ==== Sys2Proof/Laws/Display.lean ====
section
/-! SUPPORT. The sprite collision detector, pixel by pixel (spec/44_display.md rule R127): the loops of Machine/Display.lean
are equal to a condition on one pixel. -/

namespace Sys2Proof.Machine

/-- XOR into one pixel changes that pixel and no other. -/
theorem pixel_xorPixel (fb : Framebuffer) (px qx : Fin 64) (py qy : Fin 32) (bit : Bool) :
    pixel (xorPixel fb px py bit) qx qy = (pixel fb qx qy ^^ (decide (qx = px ∧ qy = py) && bit)) := by
  by_cases hy : qy = py
  · subst hy
    by_cases hx : qx = px
    · subst hx
      cases bit <;> simp [pixel, xorPixel, Vector.get_eq_getElem]
    · have hne : qx.val ≠ px.val := fun e => hx (Fin.ext e)
      cases bit
      · simp [pixel, xorPixel, Vector.get_eq_getElem]
      · have hoff : (!decide (qx < px) && decide (qx.val - px.val = 0)) = false := by
          by_cases hlt : qx < px
          · simp [hlt]
          · have : qx.val - px.val ≠ 0 := by have : ¬ qx.val < px.val := hlt; omega
            simp [this]
        simp [pixel, xorPixel, Vector.get_eq_getElem, hx, hoff]
  · have hne : py.val ≠ qy.val := fun e => hy (Fin.ext e.symm)
    simp [pixel, xorPixel, Vector.get_eq_getElem, hy, hne]

/-- Two framebuffers with the same pixels are equal. -/
theorem framebuffer_ext (f g : Framebuffer) (h : ∀ px py, pixel f px py = pixel g px py) : f = g := by
  apply Vector.ext
  intro i hi
  apply BitVec.eq_of_getLsbD_eq
  intro j hj
  exact h ⟨j, hj⟩ ⟨i, hi⟩

/-- The sprite bit over a pixel: the row drawn at column `vx`, row `py` has bit 1 over (`qx`, `qy`). -/
def rowCovers (vx : Nat) (py : Nat) (b : Byte) (qx : Fin 64) (qy : Fin 32) : Bool :=
  decide (qy.val = py ∧ vx ≤ qx.val ∧ qx.val < vx + 8) && spriteBit b (qx.val - vx)

/-- The first `k` pixels of a row: what is drawn, and whether one of them collides. -/
theorem drawPixels_spec (vx : Nat) (py : Fin 32) (b : Byte) (d : Drawing) (k : Nat) (hk : k ≤ 8) :
    let d' := (List.range k).foldl (drawPixel vx py b) d
    (∀ qx qy, pixel d'.fb qx qy =
      (pixel d.fb qx qy ^^ (rowCovers vx py.val b qx qy && decide (qx.val < vx + k)))) ∧
    (d'.collision = true ↔ d.collision = true ∨
      ∃ qx qy, pixel d.fb qx qy = true ∧ rowCovers vx py.val b qx qy = true ∧ qx.val < vx + k) := by
  induction k with
  | zero =>
    refine ⟨fun qx qy => ?_, ?_⟩
    · have : (rowCovers vx py.val b qx qy && decide (qx.val < vx + 0)) = false := by
        simp [rowCovers]
        omega
      rw [this]
      simp
    · simp only [List.range_zero, List.foldl_nil, Nat.add_zero]
      refine ⟨Or.inl, ?_⟩
      rintro (h | ⟨qx, qy, -, h, hlt⟩)
      · exact h
      · simp only [rowCovers, Bool.and_eq_true, decide_eq_true_eq] at h
        omega
  | succ k ih =>
    obtain ⟨hp, hc⟩ := ih (by omega)
    rw [List.range_succ, List.foldl_append, List.foldl_cons, List.foldl_nil]
    set d1 := (List.range k).foldl (drawPixel vx py b) d with hd1
    have hold : ∀ qx : Fin 64, qx.val = vx + k → ∀ qy, pixel d1.fb qx qy = pixel d.fb qx qy := by
      intro qx hqx qy
      rw [hp, decide_eq_false (by omega)]
      simp
    simp only [drawPixel]
    split
    · rename_i hlt
      constructor
      · intro qx qy
        simp only [pixel_xorPixel, hp]
        by_cases hx : qx.val = vx + k
        · have hx' : qx = ⟨vx + k, hlt⟩ := Fin.ext hx
          have h1 : decide (qx.val < vx + k) = false := decide_eq_false (by omega)
          have h2 : decide (qx.val < vx + (k + 1)) = true := decide_eq_true (by omega)
          have h3 : rowCovers vx py.val b qx qy = (decide (qy = py) && spriteBit b k) := by
            simp only [rowCovers, hx, Nat.add_sub_cancel_left, Fin.ext_iff]
            congr 1
            apply decide_eq_decide.mpr
            omega
          rw [h1, h2, h3, hx']
          simp
        · have hx' : qx ≠ ⟨vx + k, hlt⟩ := fun e => hx (congrArg Fin.val e)
          have h2 : decide (qx.val < vx + (k + 1)) = decide (qx.val < vx + k) :=
            decide_eq_decide.mpr (by omega)
          simp [hx', h2]
      · simp only [Bool.or_eq_true, Bool.and_eq_true, hc]
        constructor
        · rintro ((h | ⟨qx, qy, h1, h2, h3⟩) | ⟨h1, h2⟩)
          · exact .inl h
          · exact .inr ⟨qx, qy, h1, h2, by omega⟩
          · refine .inr ⟨⟨vx + k, hlt⟩, py, by rw [← hold _ rfl]; exact h1, ?_, by simp only; omega⟩
            simp only [rowCovers, Nat.add_sub_cancel_left, h2, Bool.and_true, decide_eq_true_eq, true_and]
            omega
        · rintro (h | ⟨qx, qy, h1, h2, h3⟩)
          · exact .inl (.inl h)
          · by_cases hx : qx.val = vx + k
            · have hx' : qx = ⟨vx + k, hlt⟩ := Fin.ext hx
              simp only [rowCovers, hx, Nat.add_sub_cancel_left, Bool.and_eq_true, decide_eq_true_eq] at h2
              have hy : qy = py := Fin.ext h2.1.1
              refine .inr ⟨?_, h2.2⟩
              rw [hold _ rfl, ← hx', ← hy]
              exact h1
            · exact .inl (.inr ⟨qx, qy, h1, h2, by omega⟩)
    · rename_i hge
      constructor
      · intro qx qy
        have := qx.isLt
        rw [hp]
        congr 2
        exact decide_eq_decide.mpr (by omega)
      · rw [hc]
        constructor
        · rintro (h | ⟨qx, qy, h1, h2, h3⟩)
          · exact .inl h
          · exact .inr ⟨qx, qy, h1, h2, by omega⟩
        · rintro (h | ⟨qx, qy, h1, h2, h3⟩)
          · exact .inl h
          · exact .inr ⟨qx, qy, h1, h2, by have := qx.isLt; omega⟩

/-- A row drawn: each pixel under a sprite bit 1 is inverted, and a collision is a set pixel under one. -/
theorem drawRow_spec (vx : Nat) (py : Fin 32) (b : Byte) (d : Drawing) :
    (∀ qx qy, pixel (drawRow vx py b d).fb qx qy = (pixel d.fb qx qy ^^ rowCovers vx py.val b qx qy)) ∧
    ((drawRow vx py b d).collision = true ↔ d.collision = true ∨
      ∃ qx qy, pixel d.fb qx qy = true ∧ rowCovers vx py.val b qx qy = true) := by
  have hlt : ∀ qx qy, rowCovers vx py.val b qx qy = true → qx.val < vx + 8 := by
    intro qx qy h
    simp only [rowCovers, Bool.and_eq_true, decide_eq_true_eq] at h
    exact h.1.2.2
  obtain ⟨hp, hc⟩ := drawPixels_spec vx py b d 8 (Nat.le_refl 8)
  constructor
  · intro qx qy
    rw [drawRow, hp]
    cases h : rowCovers vx py.val b qx qy
    · simp
    · simp [hlt qx qy h]
  · rw [drawRow, hc]
    constructor
    · rintro (h | ⟨qx, qy, h1, h2, -⟩)
      · exact .inl h
      · exact .inr ⟨qx, qy, h1, h2⟩
    · rintro (h | ⟨qx, qy, h1, h2⟩)
      · exact .inl h
      · exact .inr ⟨qx, qy, h1, h2, hlt qx qy h2⟩

/-- The sprite bit over a pixel: row `qy - vy` of the sprite has bit 1 in column `qx - vx` (R127). -/
def spriteCovers (vx vy : Nat) (bs : List Byte) (qx : Fin 64) (qy : Fin 32) : Bool :=
  decide (vy ≤ qy.val ∧ qy.val < vy + bs.length ∧ vx ≤ qx.val ∧ qx.val < vx + 8) &&
    spriteBit (bs.getD (qy.val - vy) 0) (qx.val - vx)

theorem spriteCovers_cons (vx vy : Nat) (b : Byte) (bs : List Byte) (qx : Fin 64) (qy : Fin 32) :
    spriteCovers vx vy (b :: bs) qx qy = if qy.val = vy then rowCovers vx vy b qx qy
      else spriteCovers vx (vy + 1) bs qx qy := by
  split
  · rename_i h
    subst h
    rw [spriteCovers, rowCovers, Nat.sub_self, List.getD_cons_zero, List.length_cons]
    congr 1
    exact decide_eq_decide.mpr (by omega)
  · rename_i h
    by_cases hle : vy + 1 ≤ qy.val
    · simp only [spriteCovers, show qy.val - vy = (qy.val - (vy + 1)) + 1 by omega, List.getD_cons_succ,
        List.length_cons]
      congr 1
      exact decide_eq_decide.mpr (by omega)
    · simp only [spriteCovers]
      rw [decide_eq_false (by omega), decide_eq_false (by omega)]
      simp

/-- A SPRITE DRAWN (R127): each pixel on the screen under a sprite bit 1 is inverted, and the collision is that one of
them was set before. Clipped pixels take no part. -/
theorem drawRows_spec (vx vy : Nat) (bs : List Byte) (d : Drawing) :
    (∀ qx qy, pixel (drawRows vx vy bs d).fb qx qy = (pixel d.fb qx qy ^^ spriteCovers vx vy bs qx qy)) ∧
    ((drawRows vx vy bs d).collision = true ↔ d.collision = true ∨
      ∃ qx qy, pixel d.fb qx qy = true ∧ spriteCovers vx vy bs qx qy = true) := by
  induction bs generalizing vy d with
  | nil =>
    have hnone : ∀ qx qy, spriteCovers vx vy [] qx qy = false := by
      intro qx qy
      rw [spriteCovers, decide_eq_false (by simp only [List.length_nil]; omega)]
      rfl
    simp [drawRows, hnone]
  | cons b bs ih =>
    obtain ⟨hp, hc⟩ := ih (vy + 1) (if h : vy < 32 then drawRow vx ⟨vy, h⟩ b d else d)
    rw [drawRows]
    have hother : ∀ qx (qy : Fin 32), qy.val = vy → spriteCovers vx (vy + 1) bs qx qy = false := by
      intro qx qy h
      simp only [spriteCovers]
      rw [decide_eq_false (by omega)]
      simp
    by_cases hy : vy < 32
    · simp only [hy, dif_pos] at hp hc ⊢
      obtain ⟨rp, rc⟩ := drawRow_spec vx ⟨vy, hy⟩ b d
      constructor
      · intro qx qy
        rw [hp, rp, spriteCovers_cons]
        split
        · rename_i h
          rw [hother qx qy h]
          simp
        · rename_i h
          have : rowCovers vx vy b qx qy = false := by simp [rowCovers, h]
          simp [this]
      · rw [hc, rc]
        constructor
        · rintro ((h | ⟨qx, qy, h1, h2⟩) | ⟨qx, qy, h1, h2⟩)
          · exact .inl h
          · refine .inr ⟨qx, qy, h1, ?_⟩
            rw [spriteCovers_cons, if_pos (by
              simp only [rowCovers, Bool.and_eq_true, decide_eq_true_eq] at h2; exact h2.1.1)]
            exact h2
          · have hne : qy.val ≠ vy := fun e => by rw [hother qx qy e] at h2; exact absurd h2 (by simp)
            rw [rp] at h1
            have : rowCovers vx vy b qx qy = false := by simp [rowCovers, hne]
            rw [this] at h1
            refine .inr ⟨qx, qy, by simpa using h1, ?_⟩
            rw [spriteCovers_cons, if_neg hne]
            exact h2
        · rintro (h | ⟨qx, qy, h1, h2⟩)
          · exact .inl (.inl h)
          · rw [spriteCovers_cons] at h2
            split at h2
            · exact .inl (.inr ⟨qx, qy, h1, h2⟩)
            · rename_i hne
              refine .inr ⟨qx, qy, ?_, h2⟩
              have : rowCovers vx vy b qx qy = false := by simp [rowCovers, hne]
              rw [rp, this, h1]
              simp
    · simp only [hy, dif_neg, not_false_eq_true] at hp hc ⊢
      have hsame : ∀ qx qy, spriteCovers vx vy (b :: bs) qx qy = spriteCovers vx (vy + 1) bs qx qy := by
        intro qx qy
        rw [spriteCovers_cons, if_neg (by have := qy.isLt; omega)]
      simp only [hsame]
      exact ⟨hp, hc⟩

end Sys2Proof.Machine
end

