-- ==== Sys2Proof/Laws/Memory.lean ====
section
/-! SUPPORT. The laws of memory: a read after a write, and that every write keeps the canonical form. -/

namespace Sys2Proof.Machine

variable (font font' : Font)

/-- Above the font table reset leaves 0x00 (R190). -/
theorem unlistedByte_above (a : Nat) (h : 80 ≤ a) : unlistedByte font a = 0 := dif_neg (by omega)

/-- Inside the font table reset leaves its byte (R190). -/
theorem unlistedByte_below (a : Nat) (h : a < 80) : unlistedByte font a = font.toList.getD a 0 := by
  simp [unlistedByte, h, List.getD_eq_getElem?_getD, Vector.get]

theorem Memory.read_filter_ne (m : Memory) (a q : Nat) (h : q ≠ a) :
    Memory.read font (m.filter fun c => c.1 != a) q = Memory.read font m q := by
  induction m with
  | nil => rfl
  | cons c rest ih =>
    by_cases hc : c.1 = a
    · rw [List.filter_cons_of_neg (by simp [hc]), ih, Memory.read, if_neg (by rw [hc]; exact fun e => h e.symm)]
    · rw [List.filter_cons_of_pos (by simp [hc]), Memory.read, Memory.read, ih]

theorem Memory.read_filter_same (m : Memory) (a : Nat) :
    Memory.read font (m.filter fun c => c.1 != a) a = unlistedByte font a := by
  induction m with
  | nil => rfl
  | cons c rest ih =>
    by_cases hc : c.1 = a
    · rw [List.filter_cons_of_neg (by simp [hc]), ih]
    · rw [List.filter_cons_of_pos (by simp [hc]), Memory.read, if_neg hc, ih]

theorem Memory.read_insert_ne (c : Host.Cell) (m : Memory) (q : Nat) (h : q ≠ c.1) :
    Memory.read font (Memory.insert c m) q = Memory.read font m q := by
  induction m with
  | nil => simp [Memory.insert, Memory.read, h.symm]
  | cons d rest ih =>
    simp only [Memory.insert]
    split
    · simp [Memory.read, h.symm]
    · simp [Memory.read, ih]

theorem Memory.read_insert_same (c : Host.Cell) (m : Memory) (h : ∀ d ∈ m, d.1 ≠ c.1) :
    Memory.read font (Memory.insert c m) c.1 = c.2 := by
  induction m with
  | nil => simp [Memory.insert, Memory.read]
  | cons d rest ih =>
    simp only [Memory.insert]
    split
    · simp [Memory.read]
    · simp [Memory.read, h d (by simp), ih fun e he => h e (by simp [he])]

/-- A read after a write of one byte: the byte written at its address, the old byte at every other (R48, R51). -/
theorem Memory.read_write (m : Memory) (a : Nat) (v : Byte) (q : Nat) :
    Memory.read font (Memory.write font m a v) q = if q = a then v else Memory.read font m q := by
  by_cases hq : q = a
  · subst hq
    rw [if_pos rfl, Memory.write]
    split
    · rename_i hv
      rw [Memory.read_filter_same, hv]
    · exact Memory.read_insert_same font (q, v) _ (by simp)
  · rw [if_neg hq, Memory.write]
    split
    · exact Memory.read_filter_ne font m a q hq
    · rw [Memory.read_insert_ne font _ _ _ hq, Memory.read_filter_ne font m a q hq]

/-- A read after a write of consecutive bytes (R48, R51). -/
theorem Memory.read_writeBytes (m : Memory) (a : Nat) (bs : List Byte) (q : Nat) :
    Memory.read font (Memory.writeBytes font m a bs) q =
      if a ≤ q ∧ q < a + bs.length then bs.getD (q - a) 0 else Memory.read font m q := by
  induction bs generalizing m a with
  | nil => rw [if_neg (by simp only [List.length_nil]; omega)]; rfl
  | cons b bs ih =>
    rw [Memory.writeBytes, ih, Memory.read_write]
    by_cases hq : q = a
    · subst hq
      rw [if_neg (by omega), if_pos rfl, if_pos (by simp), Nat.sub_self, List.getD_cons_zero]
    · by_cases hr : a + 1 ≤ q ∧ q < a + 1 + bs.length
      · rw [if_pos hr, if_pos (by simp; omega), show q - a = (q - (a + 1)) + 1 by omega, List.getD_cons_succ]
      · rw [if_neg hr, if_neg hq, if_neg (by simp; omega)]

theorem Memory.length_readBytes (m : Memory) (a n : Nat) : (Memory.readBytes font m a n).length = n := by
  induction n generalizing a with
  | zero => rfl
  | succ n ih => simp [Memory.readBytes, ih]

/-- The k-th byte of a range is the byte at its address (R48). -/
theorem Memory.getD_readBytes (m : Memory) (a n k : Nat) (h : k < n) :
    (Memory.readBytes font m a n).getD k 0 = Memory.read font m (a + k) := by
  induction n generalizing a k with
  | zero => omega
  | succ n ih =>
    cases k with
    | zero => rw [Memory.readBytes, List.getD_cons_zero, Nat.add_zero]
    | succ k => rw [Memory.readBytes, List.getD_cons_succ, ih _ _ (by omega), show a + 1 + k = a + (k + 1) by omega]

/-- A range is seen through its bytes alone. -/
theorem Memory.readBytes_congr (m m' : Memory) (h : ∀ q, Memory.read font' m' q = Memory.read font m q) (a n : Nat) :
    Memory.readBytes font' m' a n = Memory.readBytes font m a n := by
  induction n generalizing a with
  | zero => rfl
  | succ n ih => simp only [Memory.readBytes, h, ih]

/-- Memories that read alike read alike after the same write. -/
theorem Memory.read_writeBytes_congr (m m' : Memory) (h : ∀ q, Memory.read font' m' q = Memory.read font m q) (a : Nat)
    (bs : List Byte) (q : Nat) :
    Memory.read font' (Memory.writeBytes font' m' a bs) q = Memory.read font (Memory.writeBytes font m a bs) q := by
  simp only [Memory.read_writeBytes, h]

theorem Memory.wf_nil : Memory.wf font [] := ⟨List.Pairwise.nil, nofun⟩

theorem Memory.mem_insert (c d : Host.Cell) (m : Memory) : d ∈ Memory.insert c m ↔ d = c ∨ d ∈ m := by
  induction m with
  | nil => simp [Memory.insert]
  | cons e rest ih =>
    simp only [Memory.insert]
    split
    · simp
    · simp [ih, or_left_comm]

theorem Memory.pairwise_insert (c : Host.Cell) (m : Memory) (hm : m.Pairwise fun d e => d.1 < e.1)
    (hc : ∀ d ∈ m, d.1 ≠ c.1) : (Memory.insert c m).Pairwise fun d e => d.1 < e.1 := by
  induction m with
  | nil => simp [Memory.insert]
  | cons d rest ih =>
    obtain ⟨hd, hr⟩ := List.pairwise_cons.mp hm
    simp only [Memory.insert]
    split
    · rename_i hlt
      refine List.pairwise_cons.mpr ⟨fun e he => ?_, hm⟩
      obtain rfl | he := List.mem_cons.mp he
      · exact hlt
      · exact Nat.lt_trans hlt (hd e he)
    · rename_i hnl
      refine List.pairwise_cons.mpr ⟨fun e he => ?_, ih hr fun e he => hc e (by simp [he])⟩
      obtain rfl | he := (Memory.mem_insert c e rest).mp he
      · have := hc d (by simp)
        omega
      · exact hd e he

/-- A write inside memory keeps the canonical form. -/
theorem Memory.wf_write (m : Memory) (a : Nat) (v : Byte) (hm : Memory.wf font m) (ha : a ≤ 0xFFF) :
    Memory.wf font (Memory.write font m a v) := by
  obtain ⟨hs, hv⟩ := hm
  have hs' : (m.filter fun c => c.1 != a).Pairwise fun c d => c.1 < d.1 := hs.filter _
  have hv' : ∀ c ∈ m.filter fun c => c.1 != a, c.1 ≤ 0xFFF ∧ c.2 ≠ unlistedByte font c.1 := fun c hc =>
    hv c (List.mem_filter.mp hc).1
  rw [Memory.write]
  split
  · exact ⟨hs', hv'⟩
  · rename_i hne
    refine ⟨Memory.pairwise_insert _ _ hs' (by simp), fun c hc => ?_⟩
    obtain rfl | hc := (Memory.mem_insert _ c _).mp hc
    · exact ⟨ha, hne⟩
    · exact hv' c hc

/-- A write of consecutive bytes inside memory keeps the canonical form. -/
theorem Memory.wf_writeBytes (m : Memory) (a : Nat) (bs : List Byte) (hm : Memory.wf font m)
    (ha : a + bs.length ≤ 4096) : Memory.wf font (Memory.writeBytes font m a bs) := by
  induction bs generalizing m a with
  | nil => exact hm
  | cons b bs ih =>
    simp only [List.length_cons] at ha
    exact ih _ _ (Memory.wf_write font m a b hm (by omega)) (by omega)

end Sys2Proof.Machine
end

