-- ==== Sys2Proof/Laws/Ops.lean ====
section
/-! SUPPORT. One lemma for each shared operation that says all it can do; proofs cite it and do not unfold the operation. -/

namespace Sys2Proof.Machine

/-! ### Checks and outcomes -/

@[simp] theorem checked_ok {α : Type} (a : α) (k : α → Result) : checked (.ok a) k = k a := rfl

@[simp] theorem checked_error {α : Type} (f : Fault) (k : α → Result) : checked (.error f) k = .fault f := rfl

/-- A checked outcome completes exactly when the check passes and what follows completes. -/
theorem checked_eq_next {α : Type} (r : Except Fault α) (k : α → Result) (t : State) :
    checked r k = .next t ↔ ∃ a, r = .ok a ∧ k a = .next t := by
  cases r <;> simp [checked, raise]

/-- A checked outcome faults exactly when the check fails with that fault, or what follows faults with it. -/
theorem checked_eq_fault {α : Type} (r : Except Fault α) (k : α → Result) (f : Fault) :
    checked r k = .fault f ↔ r = .error f ∨ ∃ a, r = .ok a ∧ k a = .fault f := by
  cases r <;> simp [checked, raise]

/-- A checked outcome is refused only by what follows the check. -/
theorem checked_eq_refused {α : Type} (r : Except Fault α) (k : α → Result) (q : Refusal) :
    checked r k = .refused q ↔ ∃ a, r = .ok a ∧ k a = .refused q := by
  cases r <;> simp [checked, raise]

/-! ### The bounds checks (R47, R49) -/

theorem checkRange_eq_ok (kind : AccessKind) (base : Word) (len : Nat) (u : Unit) :
    checkRange kind base len = .ok u ↔ len = 0 ∨ base.toNat + len ≤ 4096 := by
  unfold checkRange
  split <;> simp_all <;> omega

theorem checkRange_eq_error (kind : AccessKind) (base : Word) (len : Nat) (f : Fault) :
    checkRange kind base len = .error f ↔
      (0 < len ∧ 4096 < base.toNat + len) ∧ f = .addressOutOfRange kind base.toNat := by
  unfold checkRange
  split
  · rename_i h
    simp only [Except.error.injEq]
    constructor
    · rintro rfl; exact ⟨by omega, rfl⟩
    · rintro ⟨-, rfl⟩; rfl
  · rename_i h
    simp only [reduceCtorEq, false_iff]
    rintro ⟨h', -⟩
    omega

theorem checkKey_eq_ok (b : Byte) (k : Fin 16) : checkKey b = .ok k ↔ b.toNat = k.val := by
  unfold checkKey
  split
  · rename_i h
    simp [Fin.ext_iff]
  · rename_i h
    have := k.isLt
    simp only [reduceCtorEq, false_iff]
    omega

theorem checkKey_eq_error (b : Byte) (f : Fault) :
    checkKey b = .error f ↔ 15 < b.toNat ∧ f = .addressOutOfRange .keyIndex b.toNat := by
  unfold checkKey
  split
  · rename_i h
    simp only [reduceCtorEq, false_iff]
    rintro ⟨h', -⟩
    omega
  · rename_i h
    simp only [Except.error.injEq]
    constructor
    · rintro rfl; exact ⟨by omega, rfl⟩
    · rintro ⟨-, rfl⟩; rfl

/-! ### The stack (R81, R83) -/

/-- A push succeeds exactly below a full stack; it writes `stack[sp]` and `sp` and nothing else. -/
theorem State.pushPc_eq_ok (s t : State) :
    s.pushPc = .ok t ↔ s.sp.val < 16 ∧ t.sp.val = s.sp.val + 1 ∧
      (∀ k, t.stack.get k = if k.val = s.sp.val then s.pc else s.stack.get k) ∧
      t = { s with stack := t.stack, sp := t.sp } := by
  unfold State.pushPc
  split
  · rename_i h
    simp only [Except.ok.injEq]
    constructor
    · rintro rfl
      refine ⟨h, rfl, fun k => ?_, rfl⟩
      simp [Vector.get_eq_getElem, Vector.getElem_set, eq_comm]
    · rintro ⟨-, hsp, hst, ht⟩
      rw [ht]
      congr 1
      · apply Vector.ext
        intro i hi
        have := hst ⟨i, hi⟩
        simp only [Vector.get_eq_getElem] at this
        rw [this, Vector.getElem_set]
        simp [eq_comm]
      · exact Fin.ext hsp.symm
  · rename_i h
    simp only [reduceCtorEq, false_iff]
    rintro ⟨h', -⟩
    omega

theorem State.pushPc_eq_error (s : State) (f : Fault) :
    s.pushPc = .error f ↔ s.sp.val = 16 ∧ f = .addressOutOfRange .stackPush 16 := by
  have := s.sp.isLt
  unfold State.pushPc
  split
  · rename_i h
    simp only [reduceCtorEq, false_iff]
    rintro ⟨h', -⟩
    omega
  · rename_i h
    have h16 : s.sp.val = 16 := by omega
    simp [h16, eq_comm]

/-- A pop succeeds exactly above an empty stack; it answers the entry below `sp` and writes `sp` and nothing else. -/
theorem State.popPc_eq_ok (s t : State) (w : Word) :
    s.popPc = .ok (w, t) ↔ t.sp.val + 1 = s.sp.val ∧ (∀ k : Fin 16, k.val = t.sp.val → w = s.stack.get k) ∧
      t = { s with sp := t.sp } := by
  have hs := s.sp.isLt
  unfold State.popPc
  split
  · rename_i h
    simp only [reduceCtorEq, false_iff]
    rintro ⟨h', -⟩
    omega
  · rename_i h
    simp only [Except.ok.injEq, Prod.mk.injEq]
    constructor
    · rintro ⟨rfl, rfl⟩
      exact ⟨by simp only; omega, fun k hk => by congr 1; exact Fin.ext hk.symm, rfl⟩
    · rintro ⟨hsp, hw, ht⟩
      refine ⟨(hw ⟨s.sp.val - 1, by omega⟩ (by simp only; omega)).symm, ?_⟩
      rw [ht]
      congr 1
      exact Fin.ext (by simp only; omega)

theorem State.popPc_eq_error (s : State) (f : Fault) :
    s.popPc = .error f ↔ s.sp.val = 0 ∧ f = .addressOutOfRange .stackPop 0 := by
  unfold State.popPc
  split
  · rename_i h
    simp [h, eq_comm]
  · rename_i h
    simp [h]

/-! ### The keyboard (R133) -/

/-- The key that resolves a wait: up in the snapshot, down now, and the lowest such. -/
theorem firstFreshKey_eq_some (snap live : Keys) (k : Fin 16) :
    firstFreshKey snap live = some k ↔ (snap.get k = false ∧ live.get k = true) ∧
      ∀ j < k, ¬ (snap.get j = false ∧ live.get j = true) := by
  unfold firstFreshKey
  rw [List.find?_eq_some_iff_getElem]
  simp only [Bool.and_eq_true, Bool.not_eq_true', List.length_finRange, List.getElem_finRange]
  constructor
  · rintro ⟨hk, i, hi, rfl, hlt⟩
    refine ⟨hk, fun j hj => ?_⟩
    have := hlt j.val hj
    simpa using this
  · rintro ⟨hk, hlt⟩
    refine ⟨hk, k.val, k.isLt, rfl, fun j hj => ?_⟩
    have := hlt ⟨j, by have := k.isLt; omega⟩ hj
    simpa using this

theorem firstFreshKey_eq_none (snap live : Keys) :
    firstFreshKey snap live = none ↔ ∀ k, ¬ (snap.get k = false ∧ live.get k = true) := by
  simp [firstFreshKey, List.find?_eq_none]

/-! ### Registers in a row (R149, R150) -/

theorem State.length_regsUpTo (s : State) (x : Reg) : (s.regsUpTo x).length = x.val + 1 := by
  simp [State.regsUpTo]

/-- Byte `k` of the dump is `V[k]`. -/
theorem State.getD_regsUpTo (s : State) (x k : Reg) (h : k ≤ x) : (s.regsUpTo x).getD k.val 0 = s.V.get k := by
  have hk := k.isLt
  have : k.val < x.val + 1 := Nat.lt_succ_of_le h
  simp [State.regsUpTo, List.getD_eq_getElem?_getD, this, Vector.get]

/-- A register of the range receives its byte, every other register keeps its value. -/
theorem get_loadFrom (k : Nat) (bs : List Byte) (V : Vector Byte 16) (q : Reg) :
    (loadFrom k bs V).get q = if k ≤ q.val ∧ q.val < k + bs.length then bs.getD (q.val - k) 0 else V.get q := by
  induction bs generalizing k V with
  | nil => rw [if_neg (by simp only [List.length_nil]; omega)]; rfl
  | cons b bs ih =>
    rw [loadFrom, ih]
    by_cases hq : q.val = k
    · rw [if_neg (by omega), if_pos (by simp; omega)]
      simp [hq, Vector.get_eq_getElem]
    · by_cases hr : k + 1 ≤ q.val ∧ q.val < k + 1 + bs.length
      · rw [if_pos hr, if_pos (by simp; omega), show q.val - k = (q.val - (k + 1)) + 1 by omega, List.getD_cons_succ]
      · rw [if_neg hr, if_neg (by simp; omega)]
        simp [Vector.get_eq_getElem, Ne.symm hq]

/-! ### Values -/

@[simp] theorem toNat_zextAddr (nnn : Addr12) : (zextAddr nnn).toNat = nnn.toNat := by
  have := nnn.isLt
  simp only [zextAddr, BitVec.toNat_setWidth]
  omega

@[simp] theorem toNat_zextByte (b : Byte) : (zextByte b).toNat = b.toNat := by
  have := b.isLt
  simp only [zextByte, BitVec.toNat_setWidth]
  omega

/-- A glyph's address never wraps: it is at most 0x4FB (R147). -/
theorem toNat_glyphAddr (b : Byte) : (glyphAddr b).toNat = 5 * b.toNat := by
  have := b.isLt
  rw [glyphAddr, BitVec.toNat_mul, toNat_zextByte, show (5 : Word).toNat = 5 from rfl]
  omega

/-- A draw is at most `nn`, whatever the generator (R104). -/
theorem drawBelow_le (k : Nat) (nn : Byte) : (drawBelow k nn).toNat ≤ nn.toNat := by
  have := nn.isLt
  have := Nat.mod_lt (Config.random k) (show 0 < nn.toNat + 1 by omega)
  simp only [drawBelow, BitVec.toNat_ofNat]
  exact Nat.le_trans (Nat.mod_le _ _) (by omega)

end Sys2Proof.Machine
end

