-- ==== Sys2Proof/Laws/State.lean ====
section
/-! SUPPORT. One lemma per field for each update of the state: what the update writes and what it leaves alone. A proof
about a meaning uses these and never unfolds a record update. -/

namespace Sys2Proof.Machine

variable (s : State)

theorem State.writeV_V (r : Reg) (b : Byte) : (s.writeV r b).V = s.V.set r.val b r.isLt := rfl
@[simp] theorem State.writeV_I (r : Reg) (b : Byte) : (s.writeV r b).I = s.I := rfl
@[simp] theorem State.writeV_pc (r : Reg) (b : Byte) : (s.writeV r b).pc = s.pc := rfl
@[simp] theorem State.writeV_memory (r : Reg) (b : Byte) : (s.writeV r b).memory = s.memory := rfl
@[simp] theorem State.writeV_stack (r : Reg) (b : Byte) : (s.writeV r b).stack = s.stack := rfl
@[simp] theorem State.writeV_sp (r : Reg) (b : Byte) : (s.writeV r b).sp = s.sp := rfl
@[simp] theorem State.writeV_fb (r : Reg) (b : Byte) : (s.writeV r b).fb = s.fb := rfl
@[simp] theorem State.writeV_DT (r : Reg) (b : Byte) : (s.writeV r b).DT = s.DT := rfl
@[simp] theorem State.writeV_ST (r : Reg) (b : Byte) : (s.writeV r b).ST = s.ST := rfl
@[simp] theorem State.writeV_key (r : Reg) (b : Byte) : (s.writeV r b).key = s.key := rfl
@[simp] theorem State.writeV_romSize (r : Reg) (b : Byte) : (s.writeV r b).romSize = s.romSize := rfl
@[simp] theorem State.writeV_kwArmed (r : Reg) (b : Byte) : (s.writeV r b).kwArmed = s.kwArmed := rfl
@[simp] theorem State.writeV_kwSnap (r : Reg) (b : Byte) : (s.writeV r b).kwSnap = s.kwSnap := rfl
@[simp] theorem State.writeV_draws (r : Reg) (b : Byte) : (s.writeV r b).draws = s.draws := rfl
@[simp] theorem State.writeV_font (r : Reg) (b : Byte) : (s.writeV r b).font = s.font := rfl

@[simp] theorem State.setI_V (w : Word) : (s.setI w).V = s.V := rfl
@[simp] theorem State.setI_I (w : Word) : (s.setI w).I = w := rfl
@[simp] theorem State.setI_pc (w : Word) : (s.setI w).pc = s.pc := rfl
@[simp] theorem State.setI_memory (w : Word) : (s.setI w).memory = s.memory := rfl
@[simp] theorem State.setI_stack (w : Word) : (s.setI w).stack = s.stack := rfl
@[simp] theorem State.setI_sp (w : Word) : (s.setI w).sp = s.sp := rfl
@[simp] theorem State.setI_fb (w : Word) : (s.setI w).fb = s.fb := rfl
@[simp] theorem State.setI_DT (w : Word) : (s.setI w).DT = s.DT := rfl
@[simp] theorem State.setI_ST (w : Word) : (s.setI w).ST = s.ST := rfl
@[simp] theorem State.setI_key (w : Word) : (s.setI w).key = s.key := rfl
@[simp] theorem State.setI_romSize (w : Word) : (s.setI w).romSize = s.romSize := rfl
@[simp] theorem State.setI_kwArmed (w : Word) : (s.setI w).kwArmed = s.kwArmed := rfl
@[simp] theorem State.setI_kwSnap (w : Word) : (s.setI w).kwSnap = s.kwSnap := rfl
@[simp] theorem State.setI_draws (w : Word) : (s.setI w).draws = s.draws := rfl
@[simp] theorem State.setI_font (w : Word) : (s.setI w).font = s.font := rfl

@[simp] theorem State.setPc_V (w : Word) : (s.setPc w).V = s.V := rfl
@[simp] theorem State.setPc_I (w : Word) : (s.setPc w).I = s.I := rfl
@[simp] theorem State.setPc_pc (w : Word) : (s.setPc w).pc = w := rfl
@[simp] theorem State.setPc_memory (w : Word) : (s.setPc w).memory = s.memory := rfl
@[simp] theorem State.setPc_stack (w : Word) : (s.setPc w).stack = s.stack := rfl
@[simp] theorem State.setPc_sp (w : Word) : (s.setPc w).sp = s.sp := rfl
@[simp] theorem State.setPc_fb (w : Word) : (s.setPc w).fb = s.fb := rfl
@[simp] theorem State.setPc_DT (w : Word) : (s.setPc w).DT = s.DT := rfl
@[simp] theorem State.setPc_ST (w : Word) : (s.setPc w).ST = s.ST := rfl
@[simp] theorem State.setPc_key (w : Word) : (s.setPc w).key = s.key := rfl
@[simp] theorem State.setPc_romSize (w : Word) : (s.setPc w).romSize = s.romSize := rfl
@[simp] theorem State.setPc_kwArmed (w : Word) : (s.setPc w).kwArmed = s.kwArmed := rfl
@[simp] theorem State.setPc_kwSnap (w : Word) : (s.setPc w).kwSnap = s.kwSnap := rfl
@[simp] theorem State.setPc_draws (w : Word) : (s.setPc w).draws = s.draws := rfl
@[simp] theorem State.setPc_font (w : Word) : (s.setPc w).font = s.font := rfl

@[simp] theorem State.setDT_V (b : Byte) : (s.setDT b).V = s.V := rfl
@[simp] theorem State.setDT_I (b : Byte) : (s.setDT b).I = s.I := rfl
@[simp] theorem State.setDT_pc (b : Byte) : (s.setDT b).pc = s.pc := rfl
@[simp] theorem State.setDT_memory (b : Byte) : (s.setDT b).memory = s.memory := rfl
@[simp] theorem State.setDT_stack (b : Byte) : (s.setDT b).stack = s.stack := rfl
@[simp] theorem State.setDT_sp (b : Byte) : (s.setDT b).sp = s.sp := rfl
@[simp] theorem State.setDT_fb (b : Byte) : (s.setDT b).fb = s.fb := rfl
@[simp] theorem State.setDT_DT (b : Byte) : (s.setDT b).DT = b := rfl
@[simp] theorem State.setDT_ST (b : Byte) : (s.setDT b).ST = s.ST := rfl
@[simp] theorem State.setDT_key (b : Byte) : (s.setDT b).key = s.key := rfl
@[simp] theorem State.setDT_romSize (b : Byte) : (s.setDT b).romSize = s.romSize := rfl
@[simp] theorem State.setDT_kwArmed (b : Byte) : (s.setDT b).kwArmed = s.kwArmed := rfl
@[simp] theorem State.setDT_kwSnap (b : Byte) : (s.setDT b).kwSnap = s.kwSnap := rfl
@[simp] theorem State.setDT_draws (b : Byte) : (s.setDT b).draws = s.draws := rfl
@[simp] theorem State.setDT_font (b : Byte) : (s.setDT b).font = s.font := rfl

@[simp] theorem State.setST_V (b : Byte) : (s.setST b).V = s.V := rfl
@[simp] theorem State.setST_I (b : Byte) : (s.setST b).I = s.I := rfl
@[simp] theorem State.setST_pc (b : Byte) : (s.setST b).pc = s.pc := rfl
@[simp] theorem State.setST_memory (b : Byte) : (s.setST b).memory = s.memory := rfl
@[simp] theorem State.setST_stack (b : Byte) : (s.setST b).stack = s.stack := rfl
@[simp] theorem State.setST_sp (b : Byte) : (s.setST b).sp = s.sp := rfl
@[simp] theorem State.setST_fb (b : Byte) : (s.setST b).fb = s.fb := rfl
@[simp] theorem State.setST_DT (b : Byte) : (s.setST b).DT = s.DT := rfl
@[simp] theorem State.setST_ST (b : Byte) : (s.setST b).ST = b := rfl
@[simp] theorem State.setST_key (b : Byte) : (s.setST b).key = s.key := rfl
@[simp] theorem State.setST_romSize (b : Byte) : (s.setST b).romSize = s.romSize := rfl
@[simp] theorem State.setST_kwArmed (b : Byte) : (s.setST b).kwArmed = s.kwArmed := rfl
@[simp] theorem State.setST_kwSnap (b : Byte) : (s.setST b).kwSnap = s.kwSnap := rfl
@[simp] theorem State.setST_draws (b : Byte) : (s.setST b).draws = s.draws := rfl
@[simp] theorem State.setST_font (b : Byte) : (s.setST b).font = s.font := rfl

@[simp] theorem State.setFb_V (fb : Framebuffer) : (s.setFb fb).V = s.V := rfl
@[simp] theorem State.setFb_I (fb : Framebuffer) : (s.setFb fb).I = s.I := rfl
@[simp] theorem State.setFb_pc (fb : Framebuffer) : (s.setFb fb).pc = s.pc := rfl
@[simp] theorem State.setFb_memory (fb : Framebuffer) : (s.setFb fb).memory = s.memory := rfl
@[simp] theorem State.setFb_stack (fb : Framebuffer) : (s.setFb fb).stack = s.stack := rfl
@[simp] theorem State.setFb_sp (fb : Framebuffer) : (s.setFb fb).sp = s.sp := rfl
@[simp] theorem State.setFb_fb (fb : Framebuffer) : (s.setFb fb).fb = fb := rfl
@[simp] theorem State.setFb_DT (fb : Framebuffer) : (s.setFb fb).DT = s.DT := rfl
@[simp] theorem State.setFb_ST (fb : Framebuffer) : (s.setFb fb).ST = s.ST := rfl
@[simp] theorem State.setFb_key (fb : Framebuffer) : (s.setFb fb).key = s.key := rfl
@[simp] theorem State.setFb_romSize (fb : Framebuffer) : (s.setFb fb).romSize = s.romSize := rfl
@[simp] theorem State.setFb_kwArmed (fb : Framebuffer) : (s.setFb fb).kwArmed = s.kwArmed := rfl
@[simp] theorem State.setFb_kwSnap (fb : Framebuffer) : (s.setFb fb).kwSnap = s.kwSnap := rfl
@[simp] theorem State.setFb_draws (fb : Framebuffer) : (s.setFb fb).draws = s.draws := rfl
@[simp] theorem State.setFb_font (fb : Framebuffer) : (s.setFb fb).font = s.font := rfl

@[simp] theorem State.armKeyWait_V : s.armKeyWait.V = s.V := rfl
@[simp] theorem State.armKeyWait_I : s.armKeyWait.I = s.I := rfl
@[simp] theorem State.armKeyWait_pc : s.armKeyWait.pc = s.pc := rfl
@[simp] theorem State.armKeyWait_memory : s.armKeyWait.memory = s.memory := rfl
@[simp] theorem State.armKeyWait_stack : s.armKeyWait.stack = s.stack := rfl
@[simp] theorem State.armKeyWait_sp : s.armKeyWait.sp = s.sp := rfl
@[simp] theorem State.armKeyWait_fb : s.armKeyWait.fb = s.fb := rfl
@[simp] theorem State.armKeyWait_DT : s.armKeyWait.DT = s.DT := rfl
@[simp] theorem State.armKeyWait_ST : s.armKeyWait.ST = s.ST := rfl
@[simp] theorem State.armKeyWait_key : s.armKeyWait.key = s.key := rfl
@[simp] theorem State.armKeyWait_romSize : s.armKeyWait.romSize = s.romSize := rfl
@[simp] theorem State.armKeyWait_kwArmed : s.armKeyWait.kwArmed = true := rfl
@[simp] theorem State.armKeyWait_kwSnap : s.armKeyWait.kwSnap = s.key := rfl
@[simp] theorem State.armKeyWait_draws : s.armKeyWait.draws = s.draws := rfl
@[simp] theorem State.armKeyWait_font : s.armKeyWait.font = s.font := rfl

@[simp] theorem State.disarmKeyWait_V : s.disarmKeyWait.V = s.V := rfl
@[simp] theorem State.disarmKeyWait_I : s.disarmKeyWait.I = s.I := rfl
@[simp] theorem State.disarmKeyWait_pc : s.disarmKeyWait.pc = s.pc := rfl
@[simp] theorem State.disarmKeyWait_memory : s.disarmKeyWait.memory = s.memory := rfl
@[simp] theorem State.disarmKeyWait_stack : s.disarmKeyWait.stack = s.stack := rfl
@[simp] theorem State.disarmKeyWait_sp : s.disarmKeyWait.sp = s.sp := rfl
@[simp] theorem State.disarmKeyWait_fb : s.disarmKeyWait.fb = s.fb := rfl
@[simp] theorem State.disarmKeyWait_DT : s.disarmKeyWait.DT = s.DT := rfl
@[simp] theorem State.disarmKeyWait_ST : s.disarmKeyWait.ST = s.ST := rfl
@[simp] theorem State.disarmKeyWait_key : s.disarmKeyWait.key = s.key := rfl
@[simp] theorem State.disarmKeyWait_romSize : s.disarmKeyWait.romSize = s.romSize := rfl
@[simp] theorem State.disarmKeyWait_kwArmed : s.disarmKeyWait.kwArmed = false := rfl
@[simp] theorem State.disarmKeyWait_kwSnap : s.disarmKeyWait.kwSnap = s.kwSnap := rfl
@[simp] theorem State.disarmKeyWait_draws : s.disarmKeyWait.draws = s.draws := rfl
@[simp] theorem State.disarmKeyWait_font : s.disarmKeyWait.font = s.font := rfl

@[simp] theorem State.countDraw_V : s.countDraw.V = s.V := rfl
@[simp] theorem State.countDraw_I : s.countDraw.I = s.I := rfl
@[simp] theorem State.countDraw_pc : s.countDraw.pc = s.pc := rfl
@[simp] theorem State.countDraw_memory : s.countDraw.memory = s.memory := rfl
@[simp] theorem State.countDraw_stack : s.countDraw.stack = s.stack := rfl
@[simp] theorem State.countDraw_sp : s.countDraw.sp = s.sp := rfl
@[simp] theorem State.countDraw_fb : s.countDraw.fb = s.fb := rfl
@[simp] theorem State.countDraw_DT : s.countDraw.DT = s.DT := rfl
@[simp] theorem State.countDraw_ST : s.countDraw.ST = s.ST := rfl
@[simp] theorem State.countDraw_key : s.countDraw.key = s.key := rfl
@[simp] theorem State.countDraw_romSize : s.countDraw.romSize = s.romSize := rfl
@[simp] theorem State.countDraw_kwArmed : s.countDraw.kwArmed = s.kwArmed := rfl
@[simp] theorem State.countDraw_kwSnap : s.countDraw.kwSnap = s.kwSnap := rfl
@[simp] theorem State.countDraw_draws : s.countDraw.draws = s.draws + 1 := rfl
@[simp] theorem State.countDraw_font : s.countDraw.font = s.font := rfl

@[simp] theorem State.writeBytes_V (a : Nat) (bs : List Byte) : (s.writeBytes a bs).V = s.V := rfl
@[simp] theorem State.writeBytes_I (a : Nat) (bs : List Byte) : (s.writeBytes a bs).I = s.I := rfl
@[simp] theorem State.writeBytes_pc (a : Nat) (bs : List Byte) : (s.writeBytes a bs).pc = s.pc := rfl
@[simp] theorem State.writeBytes_memory (a : Nat) (bs : List Byte) : (s.writeBytes a bs).memory = Memory.writeBytes s.font s.memory a bs := rfl
@[simp] theorem State.writeBytes_stack (a : Nat) (bs : List Byte) : (s.writeBytes a bs).stack = s.stack := rfl
@[simp] theorem State.writeBytes_sp (a : Nat) (bs : List Byte) : (s.writeBytes a bs).sp = s.sp := rfl
@[simp] theorem State.writeBytes_fb (a : Nat) (bs : List Byte) : (s.writeBytes a bs).fb = s.fb := rfl
@[simp] theorem State.writeBytes_DT (a : Nat) (bs : List Byte) : (s.writeBytes a bs).DT = s.DT := rfl
@[simp] theorem State.writeBytes_ST (a : Nat) (bs : List Byte) : (s.writeBytes a bs).ST = s.ST := rfl
@[simp] theorem State.writeBytes_key (a : Nat) (bs : List Byte) : (s.writeBytes a bs).key = s.key := rfl
@[simp] theorem State.writeBytes_romSize (a : Nat) (bs : List Byte) : (s.writeBytes a bs).romSize = s.romSize := rfl
@[simp] theorem State.writeBytes_kwArmed (a : Nat) (bs : List Byte) : (s.writeBytes a bs).kwArmed = s.kwArmed := rfl
@[simp] theorem State.writeBytes_kwSnap (a : Nat) (bs : List Byte) : (s.writeBytes a bs).kwSnap = s.kwSnap := rfl
@[simp] theorem State.writeBytes_draws (a : Nat) (bs : List Byte) : (s.writeBytes a bs).draws = s.draws := rfl
@[simp] theorem State.writeBytes_font (a : Nat) (bs : List Byte) : (s.writeBytes a bs).font = s.font := rfl

theorem State.loadRegsFrom_V (bs : List Byte) : (s.loadRegsFrom bs).V = loadFrom 0 bs s.V := rfl
@[simp] theorem State.loadRegsFrom_I (bs : List Byte) : (s.loadRegsFrom bs).I = s.I := rfl
@[simp] theorem State.loadRegsFrom_pc (bs : List Byte) : (s.loadRegsFrom bs).pc = s.pc := rfl
@[simp] theorem State.loadRegsFrom_memory (bs : List Byte) : (s.loadRegsFrom bs).memory = s.memory := rfl
@[simp] theorem State.loadRegsFrom_stack (bs : List Byte) : (s.loadRegsFrom bs).stack = s.stack := rfl
@[simp] theorem State.loadRegsFrom_sp (bs : List Byte) : (s.loadRegsFrom bs).sp = s.sp := rfl
@[simp] theorem State.loadRegsFrom_fb (bs : List Byte) : (s.loadRegsFrom bs).fb = s.fb := rfl
@[simp] theorem State.loadRegsFrom_DT (bs : List Byte) : (s.loadRegsFrom bs).DT = s.DT := rfl
@[simp] theorem State.loadRegsFrom_ST (bs : List Byte) : (s.loadRegsFrom bs).ST = s.ST := rfl
@[simp] theorem State.loadRegsFrom_key (bs : List Byte) : (s.loadRegsFrom bs).key = s.key := rfl
@[simp] theorem State.loadRegsFrom_romSize (bs : List Byte) : (s.loadRegsFrom bs).romSize = s.romSize := rfl
@[simp] theorem State.loadRegsFrom_kwArmed (bs : List Byte) : (s.loadRegsFrom bs).kwArmed = s.kwArmed := rfl
@[simp] theorem State.loadRegsFrom_kwSnap (bs : List Byte) : (s.loadRegsFrom bs).kwSnap = s.kwSnap := rfl
@[simp] theorem State.loadRegsFrom_draws (bs : List Byte) : (s.loadRegsFrom bs).draws = s.draws := rfl
@[simp] theorem State.loadRegsFrom_font (bs : List Byte) : (s.loadRegsFrom bs).font = s.font := rfl

@[simp] theorem State.timerTick_V : s.timerTick.V = s.V := rfl
@[simp] theorem State.timerTick_I : s.timerTick.I = s.I := rfl
@[simp] theorem State.timerTick_pc : s.timerTick.pc = s.pc := rfl
@[simp] theorem State.timerTick_memory : s.timerTick.memory = s.memory := rfl
@[simp] theorem State.timerTick_stack : s.timerTick.stack = s.stack := rfl
@[simp] theorem State.timerTick_sp : s.timerTick.sp = s.sp := rfl
@[simp] theorem State.timerTick_fb : s.timerTick.fb = s.fb := rfl
@[simp] theorem State.timerTick_DT : s.timerTick.DT = tickDown s.DT := rfl
@[simp] theorem State.timerTick_ST : s.timerTick.ST = tickDown s.ST := rfl
@[simp] theorem State.timerTick_key : s.timerTick.key = s.key := rfl
@[simp] theorem State.timerTick_romSize : s.timerTick.romSize = s.romSize := rfl
@[simp] theorem State.timerTick_kwArmed : s.timerTick.kwArmed = s.kwArmed := rfl
@[simp] theorem State.timerTick_kwSnap : s.timerTick.kwSnap = s.kwSnap := rfl
@[simp] theorem State.timerTick_draws : s.timerTick.draws = s.draws := rfl
@[simp] theorem State.timerTick_font : s.timerTick.font = s.font := rfl

@[simp] theorem State.keyboardWrite_V (k : Keys) : (s.keyboardWrite k).V = s.V := rfl
@[simp] theorem State.keyboardWrite_I (k : Keys) : (s.keyboardWrite k).I = s.I := rfl
@[simp] theorem State.keyboardWrite_pc (k : Keys) : (s.keyboardWrite k).pc = s.pc := rfl
@[simp] theorem State.keyboardWrite_memory (k : Keys) : (s.keyboardWrite k).memory = s.memory := rfl
@[simp] theorem State.keyboardWrite_stack (k : Keys) : (s.keyboardWrite k).stack = s.stack := rfl
@[simp] theorem State.keyboardWrite_sp (k : Keys) : (s.keyboardWrite k).sp = s.sp := rfl
@[simp] theorem State.keyboardWrite_fb (k : Keys) : (s.keyboardWrite k).fb = s.fb := rfl
@[simp] theorem State.keyboardWrite_DT (k : Keys) : (s.keyboardWrite k).DT = s.DT := rfl
@[simp] theorem State.keyboardWrite_ST (k : Keys) : (s.keyboardWrite k).ST = s.ST := rfl
@[simp] theorem State.keyboardWrite_key (k : Keys) : (s.keyboardWrite k).key = k := rfl
@[simp] theorem State.keyboardWrite_romSize (k : Keys) : (s.keyboardWrite k).romSize = s.romSize := rfl
@[simp] theorem State.keyboardWrite_kwArmed (k : Keys) : (s.keyboardWrite k).kwArmed = s.kwArmed := rfl
@[simp] theorem State.keyboardWrite_kwSnap (k : Keys) : (s.keyboardWrite k).kwSnap = s.kwSnap := rfl
@[simp] theorem State.keyboardWrite_draws (k : Keys) : (s.keyboardWrite k).draws = s.draws := rfl
@[simp] theorem State.keyboardWrite_font (k : Keys) : (s.keyboardWrite k).font = s.font := rfl

@[simp] theorem State.advance_eq : s.advance = s.setPc (s.pc + 2) := rfl

@[simp] theorem State.writeFlag_eq (f : Bool) : s.writeFlag f = s.writeV 15 (if f then 1 else 0) := rfl

/-- A register reads what was written last (R21). -/
@[simp] theorem State.get_writeV (r : Reg) (b : Byte) (q : Reg) :
    (s.writeV r b).V.get q = if q = r then b else s.V.get q := by
  simp [State.writeV, Vector.get_eq_getElem, Vector.getElem_set, Fin.ext_iff, eq_comm]

/-- The result and then the flag: the flag wins in `VF` (R110). -/
theorem State.get_writeV_writeFlag (r : Reg) (b : Byte) (f : Bool) (q : Reg) :
    ((s.writeV r b).writeFlag f).V.get q =
      if q = 15 then (if f then 1 else 0) else if q = r then b else s.V.get q := by
  simp only [State.writeFlag_eq, State.get_writeV]

end Sys2Proof.Machine
end

