-- ==== Sys2Proof/Laws/Exec.lean ====
section
/-! SUPPORT. The outcome of each meaning that makes a check, said once: when it completes and with what, and the step in
terms of fetch, decode and `exec`. -/

namespace Sys2Proof.Machine

variable (s t : State)

@[simp] theorem skipIf_eq (c : Bool) : skipIf c s = .next (s.setPc (s.pc + if c then 4 else 2)) := rfl

@[simp] theorem writeRegNext_eq (x : Reg) (b : Byte) :
    writeRegNext x b s = .next ((s.writeV x b).setPc (s.pc + 2)) := rfl

@[simp] theorem writeRegFlagNext_eq (x : Reg) (b : Byte) (f : Bool) :
    writeRegFlagNext x b f s = .next (((s.writeV x b).writeV 15 (if f then 1 else 0)).setPc (s.pc + 2)) := rfl

/-! ### `exec` of every instruction

A meaning that makes no check has an equation; one that makes a check has the exact condition under which it completes. With
these as simp lemmas, `cases i <;> simp at h` turns `exec i s = .next t` into what the instruction does. -/

@[simp] theorem exec_ret_eq_next : exec .ret s = .next t ↔ ∃ w u, s.popPc = .ok (w, u) ∧ u.setPc (w + 2) = t := by
  simp [exec, execRet, checked_eq_next]

@[simp] theorem exec_call_eq_next (nnn : Addr12) :
    exec (.call nnn) s = .next t ↔ ∃ u, s.pushPc = .ok u ∧ u.setPc (zextAddr nnn) = t := by
  simp [exec, execCall, checked_eq_next]

@[simp] theorem exec_skp_eq_next (x : Reg) : exec (.skp x) s = .next t ↔
    ∃ k : Fin 16, (s.V.get x).toNat = k.val ∧ s.setPc (s.pc + if s.key.get k then 4 else 2) = t := by
  simp only [exec, execSkp, checked_eq_next, checkKey_eq_ok, State.readV, skipIf_eq, Host.Outcome.next.injEq]

@[simp] theorem exec_sknp_eq_next (x : Reg) : exec (.sknp x) s = .next t ↔
    ∃ k : Fin 16, (s.V.get x).toNat = k.val ∧ s.setPc (s.pc + if !s.key.get k then 4 else 2) = t := by
  simp only [exec, execSknp, checked_eq_next, checkKey_eq_ok, State.readV, skipIf_eq, Host.Outcome.next.injEq]

@[simp] theorem exec_ldVxK_eq_next (x : Reg) : exec (.ldVxK x) s = .next t ↔
    (s.kwArmed = false ∧ s.armKeyWait = t) ∨
    (s.kwArmed = true ∧ firstFreshKey s.kwSnap s.key = none ∧ s = t) ∨
    (s.kwArmed = true ∧ ∃ k, firstFreshKey s.kwSnap s.key = some k ∧
      ((s.writeV x (BitVec.ofNat 8 k.val)).disarmKeyWait).setPc (s.pc + 2) = t) := by
  simp only [exec, execLdVxK]
  cases s.kwArmed
  · simp
  · cases firstFreshKey s.kwSnap s.key <;> simp

@[simp] theorem exec_ldBVx_eq_next (x : Reg) : exec (.ldBVx x) s = .next t ↔
    s.I.toNat + 3 ≤ 4096 ∧ (s.writeBytes s.I.toNat (bcdDigits (s.V.get x))).setPc (s.pc + 2) = t := by
  simp [exec, execLdBVx, checked_eq_next, checkRange_eq_ok, State.readV]

@[simp] theorem exec_storeRegs_eq_next (x : Reg) : exec (.storeRegs x) s = .next t ↔
    s.I.toNat + (x.val + 1) ≤ 4096 ∧ (s.writeBytes s.I.toNat (s.regsUpTo x)).setPc (s.pc + 2) = t := by
  simp [exec, execStoreRegs, checked_eq_next, checkRange_eq_ok]

@[simp] theorem exec_loadRegs_eq_next (x : Reg) : exec (.loadRegs x) s = .next t ↔
    s.I.toNat + (x.val + 1) ≤ 4096 ∧
      (s.loadRegsFrom (s.readBytes s.I.toNat (x.val + 1))).setPc (s.pc + 2) = t := by
  simp [exec, execLoadRegs, checked_eq_next, checkRange_eq_ok]

/-- What `Dxyn` draws. -/
def drawingOf (x y : Reg) (n : Nat) : Drawing :=
  drawRows (s.V.get x).toNat (s.V.get y).toNat (s.readBytes s.I.toNat n) ⟨s.fb, false⟩

@[simp] theorem exec_drw_eq_next (x y : Reg) (n : Nat) : exec (.drw x y n) s = .next t ↔
    (n = 0 ∨ s.I.toNat + n ≤ 4096) ∧
      ((s.setFb (drawingOf s x y n).fb).writeV 15 (if (drawingOf s x y n).collision then 1 else 0)).setPc
        (s.pc + 2) = t := by
  simp [exec, execDrw, drawingOf, checked_eq_next, checkRange_eq_ok, State.readV]
  exact fun _ => Iff.rfl

@[simp] theorem exec_cls : exec .cls s =
    .next ((s.setFb clearFb).setPc (s.pc + 2)) := rfl

@[simp] theorem exec_jp (nnn : Addr12) : exec (.jp nnn) s =
    .next (s.setPc (zextAddr nnn)) := rfl

@[simp] theorem exec_jpV0 (nnn : Addr12) : exec (.jpV0 nnn) s =
    .next (s.setPc (zextAddr nnn + zextByte (s.V.get 0))) := rfl

@[simp] theorem exec_seImm (x : Reg) (nn : Byte) : exec (.seImm x nn) s =
    .next (s.setPc (s.pc + if s.V.get x == nn then 4 else 2)) := rfl

@[simp] theorem exec_sneImm (x : Reg) (nn : Byte) : exec (.sneImm x nn) s =
    .next (s.setPc (s.pc + if s.V.get x != nn then 4 else 2)) := rfl

@[simp] theorem exec_seReg (x y : Reg) : exec (.seReg x y) s =
    .next (s.setPc (s.pc + if s.V.get x == s.V.get y then 4 else 2)) := rfl

@[simp] theorem exec_sneReg (x y : Reg) : exec (.sneReg x y) s =
    .next (s.setPc (s.pc + if s.V.get x != s.V.get y then 4 else 2)) := rfl

@[simp] theorem exec_ldImm (x : Reg) (nn : Byte) : exec (.ldImm x nn) s =
    .next ((s.writeV x nn).setPc (s.pc + 2)) := rfl

@[simp] theorem exec_addImm (x : Reg) (nn : Byte) : exec (.addImm x nn) s =
    .next ((s.writeV x (s.V.get x + nn)).setPc (s.pc + 2)) := rfl

@[simp] theorem exec_ldI (nnn : Addr12) : exec (.ldI nnn) s =
    .next ((s.setI (zextAddr nnn)).setPc (s.pc + 2)) := rfl

@[simp] theorem exec_rnd (x : Reg) (nn : Byte) : exec (.rnd x nn) s =
    .next ((s.countDraw.writeV x (drawBelow s.draws nn)).setPc (s.pc + 2)) := rfl

@[simp] theorem exec_ldReg (x y : Reg) : exec (.ldReg x y) s =
    .next ((s.writeV x (s.V.get y)).setPc (s.pc + 2)) := rfl

@[simp] theorem exec_orReg (x y : Reg) : exec (.orReg x y) s =
    .next ((s.writeV x (s.V.get x ||| s.V.get y)).setPc (s.pc + 2)) := rfl

@[simp] theorem exec_andReg (x y : Reg) : exec (.andReg x y) s =
    .next ((s.writeV x (s.V.get x &&& s.V.get y)).setPc (s.pc + 2)) := rfl

@[simp] theorem exec_xorReg (x y : Reg) : exec (.xorReg x y) s =
    .next ((s.writeV x (s.V.get x ^^^ s.V.get y)).setPc (s.pc + 2)) := rfl

@[simp] theorem exec_addReg (x y : Reg) : exec (.addReg x y) s =
    .next (((s.writeV x (s.V.get x + s.V.get y)).writeV 15 (if carryOut (s.V.get x) (s.V.get y) then 1 else 0)).setPc (s.pc + 2)) := rfl

@[simp] theorem exec_subReg (x y : Reg) : exec (.subReg x y) s =
    .next (((s.writeV x (s.V.get x - s.V.get y)).writeV 15 (if noBorrow (s.V.get x) (s.V.get y) then 1 else 0)).setPc (s.pc + 2)) := rfl

@[simp] theorem exec_subnReg (x y : Reg) : exec (.subnReg x y) s =
    .next (((s.writeV x (s.V.get y - s.V.get x)).writeV 15 (if noBorrow (s.V.get y) (s.V.get x) then 1 else 0)).setPc (s.pc + 2)) := rfl

@[simp] theorem exec_shr (x y : Reg) : exec (.shr x y) s =
    .next (((s.writeV x (s.V.get x >>> 1)).writeV 15 (if lowBitOut (s.V.get x) then 1 else 0)).setPc (s.pc + 2)) := rfl

@[simp] theorem exec_shl (x y : Reg) : exec (.shl x y) s =
    .next (((s.writeV x (s.V.get x <<< 1)).writeV 15 (if highBitOut (s.V.get x) then 1 else 0)).setPc (s.pc + 2)) := rfl

@[simp] theorem exec_ldVxDT (x : Reg) : exec (.ldVxDT x) s =
    .next ((s.writeV x s.DT).setPc (s.pc + 2)) := rfl

@[simp] theorem exec_ldDTVx (x : Reg) : exec (.ldDTVx x) s =
    .next ((s.setDT (s.V.get x)).setPc (s.pc + 2)) := rfl

@[simp] theorem exec_ldSTVx (x : Reg) : exec (.ldSTVx x) s =
    .next ((s.setST (s.V.get x)).setPc (s.pc + 2)) := rfl

@[simp] theorem exec_addIVx (x : Reg) : exec (.addIVx x) s =
    .next ((s.setI (s.I + zextByte (s.V.get x))).setPc (s.pc + 2)) := rfl

@[simp] theorem exec_ldFVx (x : Reg) : exec (.ldFVx x) s =
    .next ((s.setI (glyphAddr (s.V.get x))).setPc (s.pc + 2)) := rfl

/-! ### The step -/

theorem fetchDecode_eq_ok (i : Instr) : s.fetchDecode = .ok i ↔
    s.pc.toNat + 1 ≤ 0xFFF ∧ decodeWord (s.wordAt s.pc.toNat) = some i := by
  unfold State.fetchDecode fetchable
  by_cases h : s.pc.toNat + 1 ≤ 0xFFF
  · cases hd : decodeWord (s.wordAt s.pc.toNat) <;> simp [h]
  · simp [h]

theorem fetchDecode_eq_error (f : Fault) : s.fetchDecode = .error f ↔
    (0xFFF < s.pc.toNat + 1 ∧ f = .addressOutOfRange .fetch s.pc.toNat) ∨
    (s.pc.toNat + 1 ≤ 0xFFF ∧ decodeWord (s.wordAt s.pc.toNat) = none ∧
      f = .unknownOpcode s.pc (s.wordAt s.pc.toNat)) := by
  unfold State.fetchDecode fetchable
  by_cases h : s.pc.toNat + 1 ≤ 0xFFF
  · have : ¬ 0xFFF < s.pc.toNat + 1 := by omega
    cases hd : decodeWord (s.wordAt s.pc.toNat) <;> simp [h, this, @eq_comm _ _ f]
  · have : 0xFFF < s.pc.toNat + 1 := by omega
    simp [h, this, @eq_comm _ _ f]

/-- A step completes exactly when fetch and decode give an instruction whose execution completes. -/
theorem step_eq_next : step s = .next t ↔ ∃ i, s.fetchDecode = .ok i ∧ exec i s = .next t :=
  checked_eq_next _ _ _

/-- A step faults exactly when fetch or decode faults, or the instruction does. -/
theorem step_eq_fault (f : Fault) :
    step s = .fault f ↔ s.fetchDecode = .error f ∨ ∃ i, s.fetchDecode = .ok i ∧ exec i s = .fault f :=
  checked_eq_fault _ _ _

/-- Fetch and decode look at the counter and the bytes of memory only. -/
theorem fetchDecode_congr (h : t.pc = s.pc) (hm : ∀ a, t.readByte a = s.readByte a) : t.fetchDecode = s.fetchDecode := by
  simp only [State.fetchDecode, State.wordAt, h, hm]

end Sys2Proof.Machine
end

