-- ==== Sys2Proof/Laws/PerInstr.lean ====
section
/-! SUPPORT. The family EncodingFits, one lemma per instruction: the word that the encoder writes for it has the fixed bits
of a row of the opcode map (spec/30_encoding.md rules R65, R66), so it is never an unknown word. -/

namespace Sys2Proof.Laws.EncodingFits

/-- The encoder's word fits a row of the opcode map. -/
def Statement (i : Instr) : Prop := ∃ r ∈ opcodeTable, r.fits (encode i) = true

theorem of_row (i : Instr) (k : Fin 34) (h : encode i &&& (opcodeTable.get k).mask = (opcodeTable.get k).pattern) :
    Statement i :=
  ⟨opcodeTable.get k, List.get_mem _ _, beq_iff_eq.mpr h⟩

theorem cls : Statement .cls := of_row _ 0 rfl
theorem ret : Statement .ret := of_row _ 1 rfl
theorem jp (nnn : Addr12) : Statement (.jp nnn) := of_row _ 2 ((formatNNN_and_F000 _ _).trans rfl)
theorem call (nnn : Addr12) : Statement (.call nnn) := of_row _ 3 ((formatNNN_and_F000 _ _).trans rfl)
theorem seImm (x : Reg) (nn : Byte) : Statement (.seImm x nn) := of_row _ 4 ((formatXNN_and_F000 _ _ _).trans rfl)
theorem sneImm (x : Reg) (nn : Byte) : Statement (.sneImm x nn) := of_row _ 5 ((formatXNN_and_F000 _ _ _).trans rfl)
theorem seReg (x y : Reg) : Statement (.seReg x y) := of_row _ 6 ((formatXYN_and_F00F _ _ _ _).trans rfl)
theorem ldImm (x : Reg) (nn : Byte) : Statement (.ldImm x nn) := of_row _ 7 ((formatXNN_and_F000 _ _ _).trans rfl)
theorem addImm (x : Reg) (nn : Byte) : Statement (.addImm x nn) := of_row _ 8 ((formatXNN_and_F000 _ _ _).trans rfl)
theorem ldReg (x y : Reg) : Statement (.ldReg x y) := of_row _ 9 ((formatXYN_and_F00F _ _ _ _).trans rfl)
theorem orReg (x y : Reg) : Statement (.orReg x y) := of_row _ 10 ((formatXYN_and_F00F _ _ _ _).trans rfl)
theorem andReg (x y : Reg) : Statement (.andReg x y) := of_row _ 11 ((formatXYN_and_F00F _ _ _ _).trans rfl)
theorem xorReg (x y : Reg) : Statement (.xorReg x y) := of_row _ 12 ((formatXYN_and_F00F _ _ _ _).trans rfl)
theorem addReg (x y : Reg) : Statement (.addReg x y) := of_row _ 13 ((formatXYN_and_F00F _ _ _ _).trans rfl)
theorem subReg (x y : Reg) : Statement (.subReg x y) := of_row _ 14 ((formatXYN_and_F00F _ _ _ _).trans rfl)
theorem shr (x y : Reg) : Statement (.shr x y) := of_row _ 15 ((formatXYN_and_F00F _ _ _ _).trans rfl)
theorem subnReg (x y : Reg) : Statement (.subnReg x y) := of_row _ 16 ((formatXYN_and_F00F _ _ _ _).trans rfl)
theorem shl (x y : Reg) : Statement (.shl x y) := of_row _ 17 ((formatXYN_and_F00F _ _ _ _).trans rfl)
theorem sneReg (x y : Reg) : Statement (.sneReg x y) := of_row _ 18 ((formatXYN_and_F00F _ _ _ _).trans rfl)
theorem ldI (nnn : Addr12) : Statement (.ldI nnn) := of_row _ 19 ((formatNNN_and_F000 _ _).trans rfl)
theorem jpV0 (nnn : Addr12) : Statement (.jpV0 nnn) := of_row _ 20 ((formatNNN_and_F000 _ _).trans rfl)
theorem rnd (x : Reg) (nn : Byte) : Statement (.rnd x nn) := of_row _ 21 ((formatXNN_and_F000 _ _ _).trans rfl)
theorem drw (x y : Reg) (n : Nat) : Statement (.drw x y n) := of_row _ 22 ((formatXYN_and_F000 _ _ _ _).trans rfl)
theorem skp (x : Reg) : Statement (.skp x) := of_row _ 23 ((formatXNN_and_F0FF _ _ _).trans rfl)
theorem sknp (x : Reg) : Statement (.sknp x) := of_row _ 24 ((formatXNN_and_F0FF _ _ _).trans rfl)
theorem ldVxDT (x : Reg) : Statement (.ldVxDT x) := of_row _ 25 ((formatXNN_and_F0FF _ _ _).trans rfl)
theorem ldVxK (x : Reg) : Statement (.ldVxK x) := of_row _ 26 ((formatXNN_and_F0FF _ _ _).trans rfl)
theorem ldDTVx (x : Reg) : Statement (.ldDTVx x) := of_row _ 27 ((formatXNN_and_F0FF _ _ _).trans rfl)
theorem ldSTVx (x : Reg) : Statement (.ldSTVx x) := of_row _ 28 ((formatXNN_and_F0FF _ _ _).trans rfl)
theorem addIVx (x : Reg) : Statement (.addIVx x) := of_row _ 29 ((formatXNN_and_F0FF _ _ _).trans rfl)
theorem ldFVx (x : Reg) : Statement (.ldFVx x) := of_row _ 30 ((formatXNN_and_F0FF _ _ _).trans rfl)
theorem ldBVx (x : Reg) : Statement (.ldBVx x) := of_row _ 31 ((formatXNN_and_F0FF _ _ _).trans rfl)
theorem storeRegs (x : Reg) : Statement (.storeRegs x) := of_row _ 32 ((formatXNN_and_F0FF _ _ _).trans rfl)
theorem loadRegs (x : Reg) : Statement (.loadRegs x) := of_row _ 33 ((formatXNN_and_F0FF _ _ _).trans rfl)

end Sys2Proof.Laws.EncodingFits
end

