-- ==== Sys2Proof/Tests/Slice0.lean ====
section
/-! SUPPORT. The model's own tests: ill-formed terms that are refused, every row's word written out bit by bit, one-step
tests whose expected values are the vectors of spec/95_test_vectors.md (named beside each), and a witness for every
statement of Certificates/Slice0/Obligations.lean that has hypotheses. -/

namespace Sys2Proof.Machine.Tests

open Sys2Proof Sys2Proof.Machine

/-! ### Well-formedness -/

theorem test_wellFormed_refuses_sixteen_rows : (Instr.drw 0 1 16).wellFormed = false := by decide
theorem test_wellFormed_accepts_fifteen_rows : (Instr.drw 0 1 15).wellFormed = true := by decide
theorem test_rom_of_3585_bytes_refused : romWellFormed (List.replicate 3585 0) = false := by
  rw [romWellFormed, List.length_replicate]; decide
theorem test_rom_of_3584_bytes_accepted : romWellFormed (List.replicate 3584 0) = true := by
  rw [romWellFormed, List.length_replicate]; decide

/-! ### Decoding: one word of every row, from the patterns of R66 -/

theorem test_decode_cls : decodeTableWord 16 0b0000000011100000 = some .cls := by decide
theorem test_decode_ret : decodeTableWord 16 0b0000000011101110 = some .ret := by decide
theorem test_decode_jp : decodeTableWord 16 0b0001101010111100 = some (.jp 0xABC) := by decide
theorem test_decode_call : decodeTableWord 16 0b0010001100000001 = some (.call 0x301) := by decide
theorem test_decode_seImm : decodeTableWord 16 0b0011101000111100 = some (.seImm 10 0x3C) := by decide
theorem test_decode_sneImm : decodeTableWord 16 0b0100001000010001 = some (.sneImm 2 0x11) := by decide
theorem test_decode_seReg : decodeTableWord 16 0b0101001101000000 = some (.seReg 3 4) := by decide
theorem test_decode_ldImm : decodeTableWord 16 0b0110101000111100 = some (.ldImm 10 0x3C) := by decide
theorem test_decode_addImm : decodeTableWord 16 0b0111111100000001 = some (.addImm 15 0x01) := by decide
theorem test_decode_ldReg : decodeTableWord 16 0b1000110011110000 = some (.ldReg 12 15) := by decide
theorem test_decode_orReg : decodeTableWord 16 0b1000000100100001 = some (.orReg 1 2) := by decide
theorem test_decode_andReg : decodeTableWord 16 0b1000000100100010 = some (.andReg 1 2) := by decide
theorem test_decode_xorReg : decodeTableWord 16 0b1000000100100011 = some (.xorReg 1 2) := by decide
theorem test_decode_addReg : decodeTableWord 16 0b1000000100100100 = some (.addReg 1 2) := by decide
theorem test_decode_subReg : decodeTableWord 16 0b1000000100100101 = some (.subReg 1 2) := by decide
theorem test_decode_shr : decodeTableWord 16 0b1000001001110110 = some (.shr 2 7) := by decide
theorem test_decode_subnReg : decodeTableWord 16 0b1000000100100111 = some (.subnReg 1 2) := by decide
theorem test_decode_shl : decodeTableWord 16 0b1000001001111110 = some (.shl 2 7) := by decide
theorem test_decode_sneReg : decodeTableWord 16 0b1001001101000000 = some (.sneReg 3 4) := by decide
theorem test_decode_ldI : decodeTableWord 16 0b1010001000001110 = some (.ldI 0x20E) := by decide
theorem test_decode_jpV0 : decodeTableWord 16 0b1011001100000001 = some (.jpV0 0x301) := by decide
theorem test_decode_rnd : decodeTableWord 16 0b1100001000000011 = some (.rnd 2 0x03) := by decide
theorem test_decode_drw : decodeTableWord 16 0b1101000000010101 = some (.drw 0 1 5) := by decide
theorem test_decode_skp : decodeTableWord 16 0b1110000110011110 = some (.skp 1) := by decide
theorem test_decode_sknp : decodeTableWord 16 0b1110000110100001 = some (.sknp 1) := by decide
theorem test_decode_ldVxDT : decodeTableWord 16 0b1111010000000111 = some (.ldVxDT 4) := by decide
theorem test_decode_ldVxK : decodeTableWord 16 0b1111001100001010 = some (.ldVxK 3) := by decide
theorem test_decode_ldDTVx : decodeTableWord 16 0b1111001100010101 = some (.ldDTVx 3) := by decide
theorem test_decode_ldSTVx : decodeTableWord 16 0b1111001100011000 = some (.ldSTVx 3) := by decide
theorem test_decode_addIVx : decodeTableWord 16 0b1111001100011110 = some (.addIVx 3) := by decide
theorem test_decode_ldFVx : decodeTableWord 16 0b1111001000101001 = some (.ldFVx 2) := by decide
theorem test_decode_ldBVx : decodeTableWord 16 0b1111000000110011 = some (.ldBVx 0) := by decide
theorem test_decode_storeRegs : decodeTableWord 16 0b1111000101010101 = some (.storeRegs 1) := by decide
theorem test_decode_loadRegs : decodeTableWord 16 0b1111001001100101 = some (.loadRegs 2) := by decide

/-- FD2 to FD10: near misses of every group are unknown (R69). -/
theorem test_decode_unknown_words : [0x0000, 0x00E1, 0x0123, 0x5121, 0x9AB1, 0x8128, 0xE19F, 0xF166, 0xF000].map
    decodeWord = List.replicate 9 none := by decide

/-- The fields of a word, by R61. -/
theorem test_fieldsOf : fieldsOf 0xD12F = ⟨0xD, 1, 2, 0xF, 0x2F, 0x12F⟩ := by decide

/-- An instruction is two bytes, the high one first (R44, R60). -/
theorem test_decode_byte_order : decode [0x6A, 0x3C, 0x12] = .ok (.ldImm 10 0x3C, [0x12]) := by decide
theorem test_decode_truncated : decode [0x6A] = .error .truncated := by decide

/-! ### One step -/

/-- The reset state with some registers written. -/
def regs (l : List (Reg × Byte)) : State := l.foldl (fun s p => s.writeV p.1 p.2) State.reset

/-- What is seen of the next state after the word `w`, placed at the program counter; `none` if the step faults. -/
def after {α : Type} (w : Word) (s : State) (see : State → α) : Option α :=
  match step (s.placeWord w) with
  | .next t => some (see t)
  | .fault _ => none
  | .refused _ => none

/-- The fault of an outcome. -/
def faultOf : Result → Option Fault
  | .next _ => none
  | .fault f => some f
  | .refused _ => none

/-- The next state of an outcome. -/
def nextOf : Result → Option State
  | .next t => some t
  | .fault _ => none
  | .refused _ => none

/-- The keys of a list held. -/
def held (l : List (Fin 16)) : Keys := Vector.ofFn fun k => l.contains k

theorem eq_next {r : Result} {t : State} (h : nextOf r = some t) : r = .next t := by
  cases r <;> simp_all [nextOf]

theorem eq_fault {r : Result} {f : Fault} (h : faultOf r = some f) : r = .fault f := by
  cases r <;> simp_all [faultOf]

/-- The next state of an outcome, or the state it started from. -/
def nextOr (s : State) : Result → State
  | .next t => t
  | .fault _ => s
  | .refused _ => s

theorem eq_nextOr {r : Result} {s : State} (h : (nextOf r).isSome = true) : r = .next (nextOr s r) := by
  cases r <;> simp_all [nextOf, nextOr]

-- Fetch and decode: FD1, FD2, FD11 to FD16.
theorem test_fetch_big_endian : after 0x6A3C State.reset (fun t => (t.readV 10, t.pc)) = some (0x3C, 0x202) := by decide
theorem test_empty_rom_faults : faultOf (step State.reset) = some (.unknownOpcode 0x200 0x0000) := by decide
theorem test_last_fetchable_address :
    after 0x1200 { State.reset with pc := 0xFFE } (·.pc) = some 0x200 ∧
    faultOf (step { State.reset with pc := 0xFFE }) = some (.unknownOpcode 0xFFE 0x0000) := by decide
theorem test_fetch_past_memory :
    faultOf (step { State.reset with pc := 0xFFF }) = some (.addressOutOfRange .fetch 0xFFF) ∧
    faultOf (step { State.reset with pc := 0x1000 }) = some (.addressOutOfRange .fetch 0x1000) := by decide
theorem test_odd_counter_executes :
    after 0x612A { State.reset with pc := 0x203 } (fun t => (t.readV 1, t.pc)) = some (0x2A, 0x205) := by decide
theorem test_low_counter_fetches_font :
    faultOf (step { State.reset with pc := 0 }) = some (.unknownOpcode 0 0xF090) := by decide
theorem test_withFetchWord_runs_first : nextOf (step (State.reset.withFetchWord 16 0x6A3C)) =
    nextOf (exec (.ldImm 10 0x3C) (State.reset.withFetchWord 16 0x6A3C)) := by decide

-- Jumps, call and return: FL1 to FL14, S7.
theorem test_jp : after 0x1204 State.reset (·.pc) = some 0x204 ∧ after 0x1FFF State.reset (·.pc) = some 0xFFF := by decide
theorem test_jp_self : nextOf (step (State.reset.placeWord 0x1200)) = some (State.reset.placeWord 0x1200) := by decide
theorem test_call : after 0x2300 { State.reset with sp := 15 } (fun t => (t.stack.get 15, t.sp, t.pc)) =
    some (0x200, 16, 0x300) := by decide
theorem test_call_full_stack : faultOf (exec (.call 0x300) { State.reset with sp := 16 }) = some (.addressOutOfRange .stackPush 16) := by decide
theorem test_ret : after 0x00EE { State.reset with sp := 1, stack := State.reset.stack.set 0 0x204, pc := 0x300 }
    (fun t => (t.sp, t.pc, t.stack.get 0)) = some (0, 0x206, 0x204) := by decide
theorem test_ret_empty_stack : faultOf (exec .ret State.reset) = some (.addressOutOfRange .stackPop 0) := by decide
theorem test_jpV0 : after 0xB300 (regs [(3, 0x40), (0, 0x02)]) (·.pc) = some 0x302 ∧
    after 0xBFFF (regs [(0, 0xFF)]) (·.pc) = some 0x10FE := by decide

-- Skips: SK1 to SK10.
theorem test_seImm : after 0x3100 (regs []) (·.pc) = some 0x204 ∧ after 0x3100 (regs [(1, 1)]) (·.pc) = some 0x202 := by
  decide
theorem test_sneImm : after 0x4211 (regs [(2, 0x10)]) (·.pc) = some 0x204 ∧
    after 0x4210 (regs [(2, 0x10)]) (·.pc) = some 0x202 := by decide
theorem test_seReg : after 0x5340 (regs [(3, 0x7F), (4, 0x7F)]) (·.pc) = some 0x204 ∧
    after 0x5340 (regs [(3, 1), (4, 2)]) (·.pc) = some 0x202 := by decide
theorem test_sneReg : after 0x9340 (regs [(3, 1), (4, 2)]) (·.pc) = some 0x204 ∧
    after 0x9330 (regs [(3, 1)]) (·.pc) = some 0x202 := by decide

-- Immediates and random: IM1 to IM11.
theorem test_ldImm_flag_register : after 0x6F00 (regs [(15, 1)]) (fun t => (t.readV 15, t.pc)) = some (0, 0x202) := by decide
theorem test_addImm_no_carry : after 0x7102 (regs [(1, 0xFF)]) (fun t => (t.readV 1, t.readV 15)) = some (1, 0) ∧
    after 0x7F01 (regs [(15, 0xFF)]) (·.readV 15) = some 0 := by decide
theorem test_ldI : after 0xA000 { State.reset with I := 0xFFFF } (·.I) = some 0 ∧
    after 0xAFFF State.reset (·.I) = some 0xFFF := by decide
theorem test_rnd_zero : drawBelow 7 0x00 = 0x00 := by simp [drawBelow, Nat.mod_one]
theorem test_rnd_goes_on : after 0xC203 (regs [(1, 5)]) (fun t => (t.readV 1, t.pc, t.draws)) = some (5, 0x202, 1) := by
  decide

-- The ALU group: AL1 to AL27, S3, S4.
theorem test_ldReg : after 0x8CF0 (regs [(15, 1)]) (·.readV 12) = some 1 := by decide
theorem test_orReg_keeps_flag : after 0x8011 (regs [(0, 0xF0), (1, 0x0F), (15, 1)]) (fun t => (t.readV 0, t.readV 15)) =
    some (0xFF, 1) := by decide
theorem test_andReg : after 0x8012 (regs [(0, 0xF3), (1, 0x3C)]) (·.readV 0) = some 0x30 := by decide
theorem test_xorReg : after 0x8013 (regs [(0, 0xFF), (1, 0x0F)]) (·.readV 0) = some 0xF0 ∧
    after 0x8443 (regs [(4, 0xA7)]) (·.readV 4) = some 0 := by decide
theorem test_addReg : after 0x8014 (regs [(0, 200), (1, 100)]) (fun t => (t.readV 0, t.readV 15)) = some (44, 1) ∧
    after 0x8014 (regs [(0, 0x7F), (1, 0x80), (15, 1)]) (fun t => (t.readV 0, t.readV 15)) = some (0xFF, 0) := by decide
theorem test_addReg_flag_register : after 0x8FF4 (regs [(15, 0xC8)]) (·.readV 15) = some 1 ∧
    after 0x80F4 (regs [(0, 3), (15, 0xFF)]) (fun t => (t.readV 0, t.readV 15)) = some (2, 1) := by decide
theorem test_subReg : after 0x8015 (regs [(0, 10), (1, 20), (15, 9)]) (fun t => (t.readV 0, t.readV 15)) = some (246, 0) ∧
    after 0x8015 (regs [(0, 0x14), (1, 0x14)]) (fun t => (t.readV 0, t.readV 15)) = some (0, 1) := by decide
theorem test_subReg_flag_register : after 0x8F15 (regs [(15, 5), (1, 3)]) (·.readV 15) = some 1 ∧
    after 0x8F15 (regs [(15, 2), (1, 3)]) (·.readV 15) = some 0 := by decide
theorem test_shr : after 0x8276 (regs [(2, 4), (7, 0xFF), (15, 1)]) (fun t => (t.readV 2, t.readV 15, t.readV 7)) =
    some (2, 0, 0xFF) := by decide
theorem test_shr_flag_register : after 0x8F06 (regs [(15, 2)]) (·.readV 15) = some 0 := by decide
theorem test_subnReg : after 0x8017 (regs [(0, 0x0A), (1, 0x14)]) (fun t => (t.readV 0, t.readV 15)) = some (0x0A, 1) ∧
    after 0x8017 (regs [(0, 0x14), (1, 0x0A)]) (fun t => (t.readV 0, t.readV 15)) = some (0xF6, 0) := by decide
theorem test_shl : after 0x820E (regs [(2, 0x81)]) (fun t => (t.readV 2, t.readV 15)) = some (2, 1) ∧
    after 0x820E (regs [(2, 0x40), (15, 1)]) (fun t => (t.readV 2, t.readV 15)) = some (0x80, 0) := by decide
theorem test_shl_flag_register : after 0x8F0E (regs [(15, 0x80)]) (·.readV 15) = some 1 ∧
    after 0x8F0E (regs [(15, 1)]) (·.readV 15) = some 0 := by decide

-- Display: DR2, DR4, DR5, DR7, DR9, DR11, DR13, DR16, DR17.
theorem test_cls : after 0x00E0 { regs [(15, 1)] with fb := clearFb.set 3 0xFF } (fun t => (t.fb, t.readV 15)) =
    some (clearFb, 1) := by decide
theorem test_drw_clips_right :
    after 0xD011 ({ regs [(0, 60)] with I := 0x20A }.writeBytes 0x20A [0xFF]) (fun t => (t.fb, t.readV 15)) =
      some (clearFb.set 0 0xF000000000000000, 0) ∧
    after 0xD011 ({ regs [(0, 60)] with I := 0x20A, fb := clearFb.set 0 0xF000000000000000 }.writeBytes 0x20A [0xFF])
      (fun t => (t.fb, t.readV 15)) = some (clearFb, 1) ∧
    after 0xD011 ({ regs [(0, 0xFF), (15, 1)] with I := 0x20A }.writeBytes 0x20A [0xFF]) (fun t => (t.fb, t.readV 15)) =
      some (clearFb, 0) := by decide
theorem test_drw_clips_bottom :
    after 0xD012 ({ regs [(1, 31)] with I := 0x20A }.writeBytes 0x20A [0xFF, 0x81]) (·.fb) =
      some (clearFb.set 31 0xFF) := by decide
theorem test_drw_flag_register_as_column :
    after 0xDF11 ({ regs [(15, 5), (1, 2)] with I := 0x20A }.writeBytes 0x20A [0x80]) (fun t => (t.fb, t.readV 15)) =
      some (clearFb.set 2 0x20, 0) := by decide
theorem test_drw_glyph_zero : after 0xD015 (regs []) (·.fb) =
    some ((((((clearFb.set 0 0xF).set 1 0x9).set 2 0x9).set 3 0x9).set 4 0xF)) := by decide
theorem test_drw_bounds :
    after 0xD000 { regs [(15, 1)] with I := 0xFFFF } (fun t => (t.fb, t.readV 15)) = some (clearFb, 0) ∧
    faultOf (exec (.drw 0 1 1) { State.reset with I := 0xFFF }) = none ∧
    faultOf (exec (.drw 0 1 2) { regs [(1, 31)] with I := 0xFFF }) = some (.addressOutOfRange .dataRead 0xFFF) := by decide

-- Keyboard: the skips KB1 to KB6, the key wait KW1 to KW6, KW10.
theorem test_skp : after 0xE19E { regs [(1, 15)] with key := held [15] } (·.pc) = some 0x204 ∧
    after 0xE19E { regs [(1, 14)] with key := held [15] } (·.pc) = some 0x202 ∧
    faultOf (exec (.skp 0) (regs [(0, 0x10)])) = some (.addressOutOfRange .keyIndex 0x10) := by decide
theorem test_sknp : after 0xE1A1 { regs [(1, 15)] with key := held [15] } (·.pc) = some 0x202 ∧
    after 0xE1A1 { regs [(1, 14)] with key := held [15] } (·.pc) = some 0x204 ∧
    faultOf (exec (.sknp 0) (regs [(0, 0xFF)])) = some (.addressOutOfRange .keyIndex 0xFF) := by decide
theorem test_ldVxK_arms_and_waits :
    after 0xF30A { State.reset with key := held [7] } (fun t => (t.kwArmed, t.kwSnap, t.pc)) =
      some (true, held [7], 0x200) ∧
    after 0xF30A { State.reset with key := held [7], kwArmed := true, kwSnap := held [7] }
      (fun t => (t.kwArmed, t.pc, t.readV 3)) = some (true, 0x200, 0) := by decide
theorem test_ldVxK_resolves : after 0xF30A { State.reset with key := held [7, 9, 2], kwArmed := true, kwSnap := held [7] }
    (fun t => (t.readV 3, t.kwArmed, t.kwSnap, t.pc)) = some (2, false, held [7], 0x202) := by decide

-- Timers: TM1 to TM5.
theorem test_ldVxDT : after 0xF407 { State.reset with DT := 0x3C } (fun t => (t.readV 4, t.DT)) = some (0x3C, 0x3C) := by decide
theorem test_ldDTVx : after 0xF315 (regs [(3, 7)]) (fun t => (t.DT, t.ST)) = some (7, 0) := by decide
theorem test_ldSTVx : after 0xF318 (regs [(3, 0x1E)]) (fun t => (t.ST, t.DT)) = some (0x1E, 0) := by decide
theorem test_timer_tick : { State.reset with DT := 7, ST := 1 }.timerTick = { State.reset with DT := 6, ST := 0 } ∧
    State.reset.timerTick = State.reset := by decide

-- Address register and memory: IX1 to IX15.
theorem test_addIVx : after 0xF01E { regs [(0, 2)] with I := 0xFFF } (fun t => (t.I, t.readV 15)) = some (0x1001, 0) ∧
    after 0xF01E { regs [(0, 1)] with I := 0xFFFF } (·.I) = some 0 := by decide
theorem test_ldFVx : after 0xF229 (regs [(2, 0x0A)]) (·.I) = some 0x32 ∧
    after 0xF029 (regs [(0, 0xFF)]) (·.I) = some 0x4FB := by decide
theorem test_ldBVx : after 0xF033 { regs [(0, 0xFE)] with I := 0x300 } (fun t => (t.readBytes 0x300 3, t.I)) =
    some ([2, 5, 4], 0x300) := by decide
theorem test_ldBVx_last_address : after 0xF033 { regs [(0, 123)] with I := 0xFFD } (·.readBytes 0xFFD 3) = some [1, 2, 3] ∧
    faultOf (exec (.ldBVx 0) { State.reset with I := 0xFFE }) = some (.addressOutOfRange .dataWrite 0xFFE) := by decide
theorem test_storeRegs : after 0xF155 { regs [(0, 0x12), (1, 0x0A), (2, 0x99)] with I := 0x208 }
    (fun t => (t.readBytes 0x208 3, t.I)) = some ([0x12, 0x0A, 0], 0x208) := by decide
theorem test_storeRegs_bounds :
    faultOf (exec (.storeRegs 15) { State.reset with I := 0xFF1 }) = some (.addressOutOfRange .dataWrite 0xFF1) ∧
    after 0xF055 { regs [(0, 0xAA)] with I := 0 } (·.readByte 0) = some 0xAA := by decide
theorem test_loadRegs : after 0xF265 ({ regs [(3, 0x77)] with I := 0x300 }.writeBytes 0x300 [2, 5, 4, 9])
    (fun t => (t.readV 0, t.readV 1, t.readV 2, t.readV 3, t.I)) = some (2, 5, 4, 0x77, 0x300) := by decide
theorem test_loadRegs_bounds :
    faultOf (exec (.loadRegs 1) { State.reset with I := 0xFFFF }) = some (.addressOutOfRange .dataRead 0xFFFF) ∧
    after 0xF065 { regs [(0, 9)] with I := 0xFFF } (·.readV 0) = some 0 := by decide

-- Reset and load: RS2, RS5; the canonical form keeps no entry that reads as an unlisted address.
theorem test_loadRom : (State.reset.move (.loadRom (some [0x12, 0x00]))).2 = .completed ∧
    (State.reset.loadRom (some [0x12, 0x00])).memory = [(0x200, 0x12)] ∧
    (State.reset.loadRom (some [0x12, 0x00])).romSize = 2 := by decide
theorem test_failed_load : State.reset.move (.loadRom none) = (State.reset, .romLoadError .unreadable) := by decide
theorem test_write_of_unlisted_byte_removes : Memory.write defaultFont [(0, 0xAA)] 0 0xF0 = [] := by decide
theorem test_disassembleAt : (State.reset.placeWord 0x6A3C).disassembleAt 0x200 =
    some ⟨0x200, [0x6A, 0x3C], some (.ldImm 10 0x3C)⟩ ∧ State.reset.disassembleAt 0xFFF = none := by decide

/-! ### Witnesses: for each statement with hypotheses, a state and operands that meet them, at the edges of each clause -/

theorem witness_DecodeGivesBackEncodedInstruction :
    (Instr.drw 15 0 15).wellFormed = true ∧ (Instr.shr 2 7).wellFormed = true := by decide

theorem witness_DecodedBytesAreTheEncoding : decode [0x82, 0x76, 0xFF] = .ok (.shr 2 7, [0xFF]) := by decide

theorem witness_UnknownWordsByGroup : [0x00E0, 0x00EE, 0x5340, 0x8007, 0x800E, 0x9340, 0xE19E, 0xE1A1, 0xF165].all
    (fun w => (decodeWord w).isSome) = true ∧ [0x00E1, 0x5341, 0x8008, 0x800D, 0x800F, 0x9341, 0xE19F, 0xF166].all
    (fun w => (decodeWord w).isNone) = true := by decide

theorem witness_StepFetchesDecodesExecutes :
    0xFFF < ({ State.reset with pc := 0xFFF } : State).pc.toNat + 1 ∧
    ({ State.reset with pc := 0xFFE } : State).pc.toNat + 1 ≤ 0xFFF ∧
    decodeWord (({ State.reset with pc := 0xFFE } : State).placeWord 0x1200 |>.wordAt 0xFFE) = some (.jp 0x200) ∧
    decodeWord (({ State.reset with pc := 0xFFE } : State).wordAt 0xFFE) = none := by decide

theorem witness_ExecutionFaultsAreExactlyThese :
    exec (.call 0x300) { State.reset with sp := 16 } = .fault (.addressOutOfRange .stackPush 16) ∧
    exec .ret State.reset = .fault (.addressOutOfRange .stackPop 0) ∧
    exec (.drw 0 1 15) { State.reset with I := 0xFF2 } = .fault (.addressOutOfRange .dataRead 0xFF2) ∧
    exec (.skp 0) (regs [(0, 16)]) = .fault (.addressOutOfRange .keyIndex 16) ∧
    exec (.sknp 0) (regs [(0, 16)]) = .fault (.addressOutOfRange .keyIndex 16) ∧
    exec (.ldBVx 0) { State.reset with I := 0xFFE } = .fault (.addressOutOfRange .dataWrite 0xFFE) ∧
    exec (.storeRegs 15) { State.reset with I := 0xFF1 } = .fault (.addressOutOfRange .dataWrite 0xFF1) ∧
    exec (.loadRegs 15) { State.reset with I := 0xFF1 } = .fault (.addressOutOfRange .dataRead 0xFF1) :=
  ⟨eq_fault (by decide), eq_fault (by decide), eq_fault (by decide), eq_fault (by decide), eq_fault (by decide), eq_fault (by decide), eq_fault (by decide), eq_fault (by decide)⟩

theorem witness_FaultRepeatsUntilHostResets :
    step State.reset = .fault (.unknownOpcode 0x200 0x0000) ∧
    ∀ m ∈ [Move.step, Move.timerTick, Move.keyboardWrite (held [3])],
      m = .step ∨ m = .timerTick ∨ ∃ k, m = .keyboardWrite k := ⟨eq_fault (by decide), by simp⟩

theorem witness_EndedRunIsFixedPoint : (State.reset.placeWord 0x1200).Ended := ⟨0x200, by decide, by decide⟩

theorem witness_LoadRomCopiesBytes : (List.replicate 3584 (0x12 : Byte)).length ≤ 3584 ∧ ([] : List Byte).length ≤ 3584 := by
  rw [List.length_replicate]; decide

theorem witness_FailedLoadLeavesResetState :
    (∀ bytes : List Byte, none = some bytes → 3584 < bytes.length) ∧
    ∀ bytes : List Byte, some (List.replicate 3585 0) = some bytes → 3584 < bytes.length :=
  ⟨nofun, fun _ h => by rw [← Option.some.inj h, List.length_replicate]; decide⟩

theorem witness_JumpSetsProgramCounter : (0x200 : Addr12).toNat = State.reset.pc.toNat := by decide

theorem witness_CallPushesItsOwnAddress :
    ({ State.reset with sp := 15 } : State).sp.val < 16 ∧ ({ State.reset with sp := 16 } : State).sp.val = 16 := by decide

theorem witness_ReturnResumesAfterTheCall :
    ({ State.reset with sp := 16 } : State).sp.val = (15 : Fin 16).val + 1 ∧
    ({ State.reset with sp := 1 } : State).sp.val = (0 : Fin 16).val + 1 ∧ State.reset.sp.val = 0 := by decide

theorem witness_CallThenReturnRoundTrip :
    State.reset.sp.val < 16 ∧ ({ State.reset with sp := 15 } : State).sp.val < 16 ∧ (1 : Fin 16).val ≠ State.reset.sp.val := by
  decide

theorem witness_AddImmediateWrapsWithoutFlag : (15 : Reg) ≠ 0 := by decide

theorem witness_RandomIsAtMostItsLimit : (15 : Reg) ≠ 0 ∧ (drawBelow 0 0x02).toNat ≤ 2 := ⟨by decide, drawBelow_le 0 0x02⟩

/-- For the destination (14 and not 15) and an untouched register (13) of the five flag-writing ALU statements. -/
theorem witness_AddWritesSumThenCarry : (14 : Reg) ≠ 15 ∧ (13 : Reg) ≠ 14 ∧ (13 : Reg) ≠ 15 := by decide
theorem witness_SubtractWritesDifferenceThenNoBorrow : (14 : Reg) ≠ 15 ∧ (13 : Reg) ≠ 14 ∧ (13 : Reg) ≠ 15 := by decide
theorem witness_ReverseSubtractWritesDifferenceThenNoBorrow : (14 : Reg) ≠ 15 ∧ (13 : Reg) ≠ 14 ∧ (13 : Reg) ≠ 15 := by
  decide
theorem witness_ShiftRightInPlace : (14 : Reg) ≠ 15 ∧ (13 : Reg) ≠ 14 ∧ (13 : Reg) ≠ 15 := by decide
theorem witness_ShiftLeftInPlace : (14 : Reg) ≠ 15 ∧ (13 : Reg) ≠ 14 ∧ (13 : Reg) ≠ 15 := by decide

theorem witness_DrawInvertsPixelsAndReportsCollision :
    (({ State.reset with I := 0xFF1 } : State).I.toNat + 15 - 1 ≤ 0xFFF) ∧
    (0 < 15 ∧ 0xFFF < ({ State.reset with I := 0xFF2 } : State).I.toNat + 15 - 1) ∧
    (regs []).spriteOver 0 1 5 3 0 = true ∧ (regs []).spriteOver 0 1 5 1 1 = false := by decide

/-- Glyph 0 at the origin of a clear screen, the coordinates in `V[0]` and `V[1]`. -/
theorem witness_DrawingTwiceRestoresTheScreen :
    let t := nextOr State.reset (exec (.drw 0 1 5) State.reset)
    exec (.drw 0 1 5) State.reset = .next t ∧ t.V.get 0 = State.reset.V.get 0 ∧ t.V.get 1 = State.reset.V.get 1 :=
  ⟨eq_nextOr (by decide), by decide, by decide⟩

theorem witness_KeySkipsTestOneKey :
    ((regs [(0, 15)]).V.get 0).toNat = (15 : Fin 16).val ∧ 15 < ((regs [(0, 16)]).V.get 0).toNat := by decide

/-- Idle; armed with the held key in the snapshot; armed with two fresh keys, the lower one first. -/
theorem witness_KeyWaitArmsWaitsResolves :
    State.reset.kwArmed = false ∧
    (let s : State := { State.reset with kwArmed := true, key := held [7], kwSnap := held [7] }
     s.kwArmed = true ∧ ∀ k, ¬ (s.kwSnap.get k = false ∧ s.key.get k = true)) ∧
    (let s : State := { State.reset with kwArmed := true, key := held [0, 15], kwSnap := held [0] }
     s.kwArmed = true ∧ s.kwSnap.get 15 = false ∧ s.key.get 15 = true ∧
      ∀ j < (15 : Fin 16), ¬ (s.kwSnap.get j = false ∧ s.key.get j = true)) := by decide

theorem witness_BcdStoresThreeDigits :
    ({ State.reset with I := 0xFFD } : State).I.toNat + 2 ≤ 0xFFF ∧
    0xFFF < ({ State.reset with I := 0xFFE } : State).I.toNat + 2 := by decide

theorem witness_DumpStoresRegistersInOrder :
    ({ State.reset with I := 0xFF0 } : State).I.toNat + (15 : Reg).val ≤ 0xFFF ∧
    0xFFF < ({ State.reset with I := 0xFF1 } : State).I.toNat + (15 : Reg).val := by decide

theorem witness_LoadFillsRegistersInOrder :
    ({ State.reset with I := 0xFFF } : State).I.toNat + (0 : Reg).val ≤ 0xFFF ∧
    0xFFF < ({ State.reset with I := 0xFFF } : State).I.toNat + (1 : Reg).val := by decide

theorem witness_DumpThenLoadRestoresRegisters :
    let s : State := { regs [(0, 0x12), (1, 0x0A)] with I := 0x300 }
    let t := nextOr s (exec (.storeRegs 1) s)
    let t' := t.writeV 0 0x55
    exec (.storeRegs 1) s = .next t ∧ t' = { t with V := t'.V } := ⟨eq_nextOr (by decide), rfl⟩

/-- P6: `F155` at 0x206 stores `120A` at 0x208. -/
theorem witness_StoredInstructionRunsNext :
    let s : State := { regs [(0, 0x12), (1, 0x0A)] with I := 0x208, pc := 0x206 }
    exec (.storeRegs 1) s = .next (nextOr s (exec (.storeRegs 1) s)) ∧ 1 ≤ (1 : Reg).val ∧
    s.I.toNat = s.pc.toNat + 2 ∧
    decodeWord ((s.V.get 0).setWidth 16 <<< 8 ||| (s.V.get 1).setWidth 16) = some (.jp 0x20A) :=
  ⟨eq_nextOr (by decide), by decide, by decide, by decide⟩

theorem witness_OnlyBcdAndDumpWriteMemory :
    let s : State := { regs [(0, 0xFE)] with I := 0x300 }
    let t := nextOr s (exec (.ldBVx 0) s)
    let u := nextOr s (exec (.storeRegs 0) s)
    exec (.ldBVx 0) s = .next t ∧ t.readByte 0x302 ≠ s.readByte 0x302 ∧
    exec (.storeRegs 0) s = .next u ∧ u.readByte 0x300 ≠ s.readByte 0x300 :=
  ⟨eq_nextOr (by decide), by decide, eq_nextOr (by decide), by decide⟩

theorem witness_OnlyDestinationsAndFlagChange :
    let s := regs [(0, 200), (1, 100)]
    let t := nextOr s (exec (.addReg 0 1) s)
    exec (.addReg 0 1) s = .next t ∧ t.V.get 0 ≠ s.V.get 0 ∧ t.V.get 15 ≠ s.V.get 15 :=
  ⟨eq_nextOr (by decide), by decide, by decide⟩

theorem witness_FlagWritersLeaveZeroOrOne :
    let s := regs [(0, 200), (1, 100)]
    exec (.addReg 0 1) s = .next (nextOr s (exec (.addReg 0 1) s)) ∧ writesFlag (.addReg 0 1) = true :=
  ⟨eq_nextOr (by decide), rfl⟩

/-- Each kind of special state changes by an instruction of its own. -/
theorem witness_SpecialStateChangesOnlyByItsInstructions :
    let s : State := { regs [(0, 1)] with sp := 1, fb := clearFb.set 0 1 }
    let go := fun i => nextOr s (exec i s)
    exec (.call 0x300) s = .next (go (.call 0x300)) ∧ (go (.call 0x300)).stack ≠ s.stack ∧ (go .ret).sp ≠ s.sp ∧
    (go .cls).fb ≠ s.fb ∧ (go (.ldI 0x300)).I ≠ s.I ∧ (go (.ldDTVx 0)).DT ≠ s.DT ∧ (go (.ldSTVx 0)).ST ≠ s.ST ∧
    (go (.ldVxK 0)).kwArmed ≠ s.kwArmed := ⟨eq_nextOr (by decide), by decide⟩

theorem witness_ProgramCounterAfterEachInstruction :
    let s : State := { State.reset with pc := 0xFFE, sp := 1 }
    s.pc.toNat ≤ 0xFFE ∧ s.PcBounded ∧ exec .ret s = .next (nextOr s (exec .ret s)) ∧
    exec (.seImm 0 0) s = .next (nextOr s (exec (.seImm 0 0) s)) :=
  ⟨by decide, ⟨by decide, by decide⟩, eq_nextOr (by decide), eq_nextOr (by decide)⟩

theorem witness_RomSizeHasNoEffect :
    step (State.reset.placeWord 0x6A3C) = .next (nextOr State.reset (step (State.reset.placeWord 0x6A3C))) ∧
    step State.reset = .fault (.unknownOpcode 0x200 0x0000) := ⟨eq_nextOr (by decide), eq_fault (by decide)⟩

/-- An `Fx18`, a step of another instruction, and a fault. -/
theorem witness_SoundTimerIsNeverRead :
    (let s := (regs [(3, 7)]).placeWord 0xF318
     step s = .next (nextOr s (step s)) ∧ s.fetchDecode = .ok (.ldSTVx 3)) ∧
    (let u := State.reset.placeWord 0x6A3C
     step u = .next (nextOr u (step u)) ∧ ∀ x, u.fetchDecode ≠ .ok (.ldSTVx x)) ∧
    step State.reset = .fault (.unknownOpcode 0x200 0x0000) :=
  ⟨⟨eq_nextOr (by decide), rfl⟩, ⟨eq_nextOr (by decide), fun _ h => nomatch h⟩, eq_fault (by decide)⟩

theorem witness_KeyboardReadOnlyByKeyInstructions :
    (∀ x, Instr.cls ≠ .skp x ∧ Instr.cls ≠ .sknp x ∧ Instr.cls ≠ .ldVxK x) ∧
    exec .cls State.reset = .next (nextOr State.reset (exec .cls State.reset)) := ⟨by decide, eq_nextOr (by decide)⟩

theorem witness_DelayTimerReadOnlyByItsInstruction :
    (∀ x, Instr.ldSTVx 0 ≠ .ldVxDT x ∧ Instr.ldSTVx 0 ≠ .ldDTVx x) ∧
    exec (.ldSTVx 0) State.reset = .next (nextOr State.reset (exec (.ldSTVx 0) State.reset)) := ⟨by decide, eq_nextOr (by decide)⟩

/-- A step that stores, from a canonical memory. -/
theorem witness_MemoryStaysCanonical :
    let s := State.writeBytes { regs [(0, 0xFE)] with I := 0xFFD } 0x200 [0xF0, 0x33]
    Memory.wf s.font s.memory ∧ step s = .next (nextOr s (step s)) := ⟨by decide, eq_nextOr (by decide)⟩

/-- An armed wait at its `F30A`, with a fresh key and without one. -/
theorem witness_ArmedKeyWaitStaysAtItsInstruction :
    let s : State := { State.reset.placeWord 0xF30A with kwArmed := true, key := held [7] }
    let u : State := { State.reset.placeWord 0xF30A with kwArmed := true }
    s.KeyWaitAtPc ∧ step s = .next (nextOr s (step s)) ∧ u.KeyWaitAtPc ∧ step u = .next u :=
  ⟨fun _ => ⟨3, rfl⟩, eq_nextOr (by decide), fun _ => ⟨3, rfl⟩, eq_next (by decide)⟩

/-- `Bnnn` from the reset counter reaches the bound. -/
theorem witness_ProgramCounterStaysBounded :
    let s := (regs [(0, 0xFF)]).placeWord 0xBFFF
    s.PcBounded ∧ step s = .next { s with pc := 0x10FE } := ⟨⟨by decide, by decide⟩, eq_next (by decide)⟩

/-- Two tables that differ at address 0, where one memory lists the byte that the other table has. -/
theorem witness_FontIsSeenThroughMemoryAlone :
    let zeros : Font := Vector.replicate 80 0
    let s : State := { State.resetWith (zeros.set 0 0x12) with memory := [(0x200, 0xF0), (0x201, 0x65)] }
    let s' : State := { State.resetWith zeros with memory := [(0, 0x12), (0x200, 0xF0), (0x201, 0x65)] }
    s' = { s with font := s'.font, memory := s'.memory } ∧ s'.font ≠ s.font ∧ (∀ a, s'.readByte a = s.readByte a) ∧
    step s = .next (nextOr s (step s)) ∧ step State.reset = .fault (.unknownOpcode 0x200 0x0000) := by
  refine ⟨rfl, by decide, fun a => ?_, eq_nextOr (by decide), eq_fault (by decide)⟩
  cases a <;> simp [State.readByte, State.resetWith, Memory.read, unlistedByte, Vector.get_eq_getElem]

/-- A machine with another table: its `init` leaves that table's bytes at 0x000. -/
theorem test_init_copies_the_machine_font : (State.resetWith (Vector.replicate 80 0xA5)).init.readBytes 0x4F 2 = [0xA5, 0] := by
  decide

end Sys2Proof.Machine.Tests
end

namespace Sys2Proof.Machine

/-! ### The outcomes of a step (00_scope.md rules R12, R13) -/

/-- A check never refuses by itself: it faults or goes on. -/
theorem checked_ne_refused {α : Type} {r : Except Fault α} {k : α → Result} (hk : ∀ a q, k a ≠ .refused q) (q : Refusal) :
    checked r k ≠ .refused q := by
  rw [Ne, checked_eq_refused]
  rintro ⟨a, -, ha⟩
  exact hk a q ha

/-- Every instruction has its meaning: those that make a check refuse neither in the check nor after it, `Fx0A` completes
whatever its wait, and the others complete always. -/
theorem exec_ne_refused (i : Instr) (s : State) (q : Refusal) : exec i s ≠ .refused q := by
  cases i with
  | ret | call | drw | skp | sknp | ldBVx | storeRegs | loadRegs => exact checked_ne_refused (by simp) q
  | ldVxK x =>
    simp only [exec, execLdVxK]
    cases s.kwArmed
    · simp
    · cases firstFreshKey s.kwSnap s.key <;> simp
  | _ => simp

theorem step_ne_refused (s : State) (q : Refusal) : step s ≠ .refused q :=
  checked_ne_refused (fun i => exec_ne_refused i s) q

theorem State.move_step_of_next {s t : State} (h : step s = .next t) : s.move .step = (t, .completed) := by
  simp only [State.move, h, settle]

/-- The driver keeps the state of a faulting step (decision D4). -/
theorem State.move_step_of_fault {s : State} {f : Fault} (h : step s = .fault f) : s.move .step = (s, .fault f) := by
  simp only [State.move, h, settle]

/-- Settles O7: no step is refused, and in each of the two outcomes left the move hands on what the step answers. -/
theorem stepCompletesOrFaultsUnchanged : Obligations.StepCompletesOrFaultsUnchanged := by
  intro s
  cases h : step s with
  | next t => exact .inl ⟨t, rfl, State.move_step_of_next h⟩
  | fault f => exact .inr ⟨f, rfl, State.move_step_of_fault h⟩
  | refused q => exact absurd h (step_ne_refused s q)

@[simp] theorem State.setPc_self (s : State) : s.setPc s.pc = s := rfl

/-- Settles O10: the target of the jump is the counter itself, and a jump writes nothing else. -/
theorem endedRunIsFixedPoint : Obligations.EndedRunIsFixedPoint := by
  rintro s ⟨nnn, hfetch, hself⟩
  have htarget : zextAddr nnn = s.pc := BitVec.eq_of_toNat_eq (by rw [toNat_zextAddr, hself])
  refine (step_eq_next s s).mpr ⟨.jp nnn, hfetch, ?_⟩
  rw [exec_jp, htarget, State.setPc_self]

end Sys2Proof.Machine

namespace Sys2Proof.Machine

/-! ### What an execution leaves alone (10_state.md rules R22, R37) -/

/-- A return writes nothing but `pc` and `sp` (R81). -/
theorem exec_ret_frame {s t : State} (h : exec .ret s = .next t) : t = { s with pc := t.pc, sp := t.sp } := by
  obtain ⟨w, u, hpop, rfl⟩ := (exec_ret_eq_next s t).mp h
  obtain ⟨-, -, hu⟩ := (State.popPc_eq_ok s u w).mp hpop
  rw [hu]
  rfl

/-- A call writes nothing but `pc`, the stack and `sp` (R83). -/
theorem exec_call_frame {nnn : Addr12} {s t : State} (h : exec (.call nnn) s = .next t) :
    t = { s with pc := t.pc, stack := t.stack, sp := t.sp } := by
  obtain ⟨u, hpush, rfl⟩ := (exec_call_eq_next s t nnn).mp h
  obtain ⟨-, -, -, hu⟩ := (State.pushPc_eq_ok s u).mp hpush
  rw [hu]
  rfl

/-- Settles O49: the next state of each instruction is the old one under updates that name the fields they write. -/
theorem specialStateChangesOnlyByItsInstructions : Obligations.SpecialStateChangesOnlyByItsInstructions := by
  intro i s t h
  cases i with
  | ret => rw [exec_ret_frame h]; simp
  | call nnn => rw [exec_call_frame h]; simp
  | skp | sknp =>
    simp at h
    obtain ⟨-, -, rfl⟩ := h
    simp
  | ldVxK x =>
    obtain ⟨-, rfl⟩ | ⟨-, -, rfl⟩ | ⟨-, k, -, rfl⟩ := (exec_ldVxK_eq_next s t x).mp h
    all_goals simp
  | drw | ldBVx | storeRegs | loadRegs =>
    simp at h
    obtain ⟨-, rfl⟩ := h
    simp
  | _ => cases h; simp

/-- A register that is no destination, and not the flag of a flag writer, keeps its value. -/
theorem exec_keeps_reg {i : Instr} {s t : State} {q : Reg} (h : exec i s = .next t) (hreg : writesReg q i = false)
    (hflag : q = 15 → writesFlag i = false) : t.V.get q = s.V.get q := by
  cases i with
  | ret => rw [exec_ret_frame h]
  | call nnn => rw [exec_call_frame h]
  | skp | sknp =>
    simp at h
    obtain ⟨-, -, rfl⟩ := h
    rfl
  | ldVxK x =>
    have hq : q ≠ x := by simpa [writesReg] using hreg
    obtain ⟨-, rfl⟩ | ⟨-, -, rfl⟩ | ⟨-, k, -, rfl⟩ := (exec_ldVxK_eq_next s t x).mp h
    all_goals simp [hq]
  | loadRegs x =>
    have hq : ¬ q.val < x.val + 1 := by simpa [writesReg] using hreg
    obtain ⟨-, rfl⟩ := (exec_loadRegs_eq_next s t x).mp h
    simp [State.loadRegsFrom_V, get_loadFrom, State.readBytes, Memory.length_readBytes, hq]
  | drw x y n =>
    have hq : q ≠ 15 := fun e => nomatch hflag e
    obtain ⟨-, rfl⟩ := (exec_drw_eq_next s t x y n).mp h
    simp [hq]
  | ldBVx | storeRegs =>
    simp at h
    obtain ⟨-, rfl⟩ := h
    rfl
  | ldImm x | addImm x | ldReg x | orReg x | andReg x | xorReg x | rnd x | ldVxDT x =>
    cases h
    have hq : q ≠ x := by simpa [writesReg] using hreg
    simp [hq]
  | addReg x | subReg x | shr x | subnReg x | shl x =>
    cases h
    have hq : q ≠ x := by simpa [writesReg] using hreg
    have hF : q ≠ 15 := fun e => nomatch hflag e
    simp [hq, hF]
  | _ => cases h; rfl

/-- Settles O47: the contrapositive of `exec_keeps_reg`. -/
theorem onlyDestinationsAndFlagChange : Obligations.OnlyDestinationsAndFlagChange := by
  intro i s t q h hne
  by_contra hno
  simp only [not_or, Bool.not_eq_true, not_and] at hno
  obtain ⟨hreg, hflag⟩ := hno
  exact hne (exec_keeps_reg h hreg hflag)

/-- A flag just written is 0x00 or 0x01, wherever control goes next. -/
theorem State.flag_writeV_flag (s : State) (f : Bool) (w : Word) :
    ((s.writeV 15 (if f then 1 else 0)).setPc w).V.get 15 = 0x00 ∨
    ((s.writeV 15 (if f then 1 else 0)).setPc w).V.get 15 = 0x01 := by
  cases f <;> simp

/-- Settles O48: a flag writer writes the flag after its result (R110, R127). -/
theorem flagWritersLeaveZeroOrOne : Obligations.FlagWritersLeaveZeroOrOne := by
  intro i s t h hflag
  cases i with
  | drw x y n =>
    obtain ⟨-, rfl⟩ := (exec_drw_eq_next s t x y n).mp h
    exact State.flag_writeV_flag _ _ _
  | addReg | subReg | shr | subnReg | shl =>
    cases h
    exact State.flag_writeV_flag _ _ _
  | _ => cases hflag

/-! ### The peripheral fields, which most instructions do not see (10_state.md rules R30 to R33) -/

/-- A change of the fields that tie the core to the other agents: the timers, the keyboard and `rom_size`. -/
structure PeripheralMap where
  /-- The new `DT` from the old one. -/
  DT : Byte → Byte := id
  /-- The new `ST` from the old one. -/
  ST : Byte → Byte := id
  /-- The new keyboard from the old one. -/
  key : Keys → Keys := id
  /-- The new `rom_size` from the old one. -/
  romSize : Fin 3585 → Fin 3585 := id

/-- The state with the change made to it. -/
def PeripheralMap.apply (p : PeripheralMap) (s : State) : State :=
  { s with DT := p.DT s.DT, ST := p.ST s.ST, key := p.key s.key, romSize := p.romSize s.romSize }

/-- The change moves no field that the instruction reads or writes (R37). -/
structure PeripheralMap.UnseenBy (p : PeripheralMap) (i : Instr) : Prop where
  /-- `DT` stays, or the instruction is neither `Fx07` nor `Fx15`. -/
  DT : p.DT = id ∨ ∀ x, i ≠ .ldVxDT x ∧ i ≠ .ldDTVx x
  /-- `ST` stays, or the instruction is not `Fx18`. -/
  ST : p.ST = id ∨ ∀ x, i ≠ .ldSTVx x
  /-- The keyboard stays, or the instruction is none of `Ex9E`, `ExA1`, `Fx0A`. -/
  key : p.key = id ∨ ∀ x, i ≠ .skp x ∧ i ≠ .sknp x ∧ i ≠ .ldVxK x

/-- The outcome with its next state changed; a fault stays as it is. -/
def mapNext (f : State → State) : Result → Result
  | .next t => .next (f t)
  | .fault e => .fault e
  | .refused q => .refused q

/-- A check of one thing before and after a change: the same failure, or the change of what follows. -/
theorem checked_mapNext {α : Type} {f : State → State} {k k' : α → Result} (r : Except Fault α)
    (h : ∀ a, k' a = mapNext f (k a)) : checked r k' = mapNext f (checked r k) := by
  cases r with
  | error e => rfl
  | ok a => exact h a

namespace PeripheralMap

variable (p : PeripheralMap) (s : State)

@[simp] theorem apply_key : (p.apply s).key = p.key s.key := rfl
@[simp] theorem apply_kwArmed : (p.apply s).kwArmed = s.kwArmed := rfl
@[simp] theorem apply_kwSnap : (p.apply s).kwSnap = s.kwSnap := rfl

theorem popPc_apply : (p.apply s).popPc = s.popPc.map fun (w, t) => (w, p.apply t) := by
  unfold State.popPc
  by_cases h : s.sp.val = 0 <;> simp [apply, h, Except.map]

theorem pushPc_apply : (p.apply s).pushPc = s.pushPc.map p.apply := by
  unfold State.pushPc
  by_cases h : s.sp.val < 16 <;> simp [apply, h, Except.map]

theorem fetchDecode_apply : (p.apply s).fetchDecode = s.fetchDecode :=
  fetchDecode_congr s (p.apply s) rfl fun _ => rfl

/-- An execution commutes with a change of peripheral fields that it does not see. -/
theorem exec_apply {i : Instr} (hp : p.UnseenBy i) : exec i (p.apply s) = mapNext p.apply (exec i s) := by
  obtain ⟨fDT, fST, fkey, fsize⟩ := p
  obtain ⟨hDT, hST, hkey⟩ := hp
  cases i with
  | ret =>
    simp only [exec, execRet, popPc_apply]
    cases s.popPc <;> rfl
  | call nnn =>
    simp only [exec, execCall, pushPc_apply]
    cases s.pushPc <;> rfl
  | drw | ldBVx | storeRegs | loadRegs => exact checked_mapNext _ fun _ => rfl
  | skp x | sknp x =>
    obtain rfl : fkey = id := hkey.resolve_right fun hne => by simpa using hne x
    exact checked_mapNext _ fun _ => rfl
  | ldVxK x =>
    obtain rfl : fkey = id := hkey.resolve_right fun hne => by simpa using hne x
    cases harmed : s.kwArmed
    · simp only [exec, execLdVxK, apply_kwArmed, harmed, Bool.false_eq_true, if_false]
      rfl
    · simp only [exec, execLdVxK, apply_kwArmed, apply_kwSnap, apply_key, id, harmed, if_true]
      cases firstFreshKey s.kwSnap s.key <;> rfl
  | ldVxDT x | ldDTVx x =>
    obtain rfl : fDT = id := hDT.resolve_right fun hne => by simpa using hne x
    rfl
  | ldSTVx x =>
    obtain rfl : fST = id := hST.resolve_right fun hne => hne x rfl
    rfl
  | _ => rfl

/-- A step commutes with a change of peripheral fields that the instruction at `pc` does not see. -/
theorem step_apply (hp : ∀ i, s.fetchDecode = .ok i → p.UnseenBy i) :
    step (p.apply s) = mapNext p.apply (step s) := by
  simp only [step, fetchDecode_apply]
  cases h : s.fetchDecode with
  | error e => rfl
  | ok i => exact p.exec_apply s (hp i h)

variable {p s} {t : State}

theorem exec_apply_eq_next {i : Instr} (hp : p.UnseenBy i) (h : exec i s = .next t) :
    exec i (p.apply s) = .next (p.apply t) := by
  rw [p.exec_apply s hp, h]
  rfl

theorem step_apply_eq_next (hp : ∀ i, s.fetchDecode = .ok i → p.UnseenBy i) (h : step s = .next t) :
    step (p.apply s) = .next (p.apply t) := by
  rw [p.step_apply s hp, h]
  rfl

theorem step_apply_eq_fault {f : Fault} (hp : ∀ i, s.fetchDecode = .ok i → p.UnseenBy i) (h : step s = .fault f) :
    step (p.apply s) = .fault f := by
  rw [p.step_apply s hp, h]
  rfl

end PeripheralMap

/-- Settles O51: no instruction sees a change of `rom_size`. -/
theorem romSizeHasNoEffect : Obligations.RomSizeHasNoEffect := by
  intro s n
  have hunseen (i : Instr) : PeripheralMap.UnseenBy { romSize := fun _ => n } i := ⟨.inl rfl, .inl rfl, .inl rfl⟩
  exact ⟨fun t h => PeripheralMap.step_apply_eq_next (fun i _ => hunseen i) h,
    fun f h => PeripheralMap.step_apply_eq_fault (fun i _ => hunseen i) h⟩

/-- An `Fx18` at `pc` completes, and puts its own byte over what `ST` held (R143). -/
theorem step_ldSTVx {s : State} {x : Reg} (h : s.fetchDecode = .ok (.ldSTVx x)) :
    step s = .next ((s.setST (s.V.get x)).setPc (s.pc + 2)) := by
  rw [step, h, checked_ok, exec_ldSTVx]

/-- Settles O52: an `Fx18` overwrites the changed byte, and no other instruction sees it; an `Fx18` never faults. -/
theorem soundTimerIsNeverRead : Obligations.SoundTimerIsNeverRead := by
  intro s b
  have hunseen (hne : ∀ x, s.fetchDecode ≠ .ok (.ldSTVx x)) (i : Instr) (hi : s.fetchDecode = .ok i) :
      PeripheralMap.UnseenBy { ST := fun _ => b } i :=
    ⟨.inl rfl, .inr fun x hx => hne x (hx ▸ hi), .inl rfl⟩
  refine ⟨fun t h => ⟨fun x hx => ?_, fun hne => PeripheralMap.step_apply_eq_next (hunseen hne) h⟩, fun f h => ?_⟩
  · have hx' : State.fetchDecode { s with ST := b } = .ok (.ldSTVx x) :=
      (PeripheralMap.fetchDecode_apply { ST := fun _ => b } s).trans hx
    rw [step_ldSTVx hx', ← h, step_ldSTVx hx]
    rfl
  · have hne : ∀ x, s.fetchDecode ≠ .ok (.ldSTVx x) := fun x hx => nomatch h.symm.trans (step_ldSTVx hx)
    exact PeripheralMap.step_apply_eq_fault (hunseen hne) h

/-- Settles O53: an instruction that is none of the three does not see a change of the keyboard. -/
theorem keyboardReadOnlyByKeyInstructions : Obligations.KeyboardReadOnlyByKeyInstructions := fun _ _ _ k hi =>
  PeripheralMap.exec_apply_eq_next (p := { key := fun _ => k }) ⟨.inl rfl, .inl rfl, .inr hi⟩

/-- Settles O54: an instruction that is neither of the two does not see a change of `DT`. -/
theorem delayTimerReadOnlyByItsInstruction : Obligations.DelayTimerReadOnlyByItsInstruction := fun _ _ _ b hi =>
  PeripheralMap.exec_apply_eq_next (p := { DT := fun _ => b }) ⟨.inr hi, .inl rfl, .inl rfl⟩

/-! ### Invariants of steps and moves (00_scope.md rule R9, 10_state.md rules R25, R26) -/

theorem checkRom_eq_ok (source : Option (List Byte)) (bytes : List Byte) :
    checkRom source = .ok bytes ↔ source = some bytes ∧ bytes.length ≤ 3584 := by
  cases source with
  | none => simp [checkRom]
  | some bs =>
    simp only [checkRom, Option.some.injEq]
    split
    · simp only [Except.ok.injEq]
      constructor
      · rintro rfl
        exact ⟨rfl, ‹_›⟩
      · exact fun ⟨h, _⟩ => h
    · simp only [reduceCtorEq, false_iff]
      rintro ⟨rfl, h⟩
      contradiction

/-- All that a load can do: an `init`, or an `init` and the bytes of a ROM that fits (R194, R195). -/
theorem State.loadRom_cases (s : State) (source : Option (List Byte)) :
    s.loadRom source = s.init ∨ ∃ bytes : List Byte, bytes.length ≤ 3584 ∧
      s.loadRom source = { s.init.writeBytes 0x200 bytes with romSize := Fin.ofNat 3585 bytes.length } := by
  unfold State.loadRom
  cases h : checkRom source with
  | error e => exact .inl rfl
  | ok bytes => exact .inr ⟨bytes, ((checkRom_eq_ok source bytes).mp h).2, rfl⟩

/-- A property that steps and every other agent's move keep is kept by moves: a faulting step keeps the state (R166). -/
theorem State.move_keeps {P : State → Prop} (hstep : ∀ s t, P s → step s = .next t → P t)
    (htick : ∀ s, P s → P s.timerTick) (hkeys : ∀ s k, P s → P (s.keyboardWrite k)) (hinit : ∀ s, P s → P s.init)
    (hload : ∀ s source, P s → P (s.loadRom source)) (s : State) (m : Move) (hs : P s) : P (s.move m).1 := by
  cases m with
  | step =>
    cases h : step s with
    | next t =>
      rw [State.move_step_of_next h]
      exact hstep s t hs h
    | fault f =>
      rw [State.move_step_of_fault h]
      exact hs
    | refused q => exact absurd h (step_ne_refused s q)
  | timerTick => exact htick s hs
  | keyboardWrite k => exact hkeys s k hs
  | init => exact hinit s hs
  | loadRom source => exact hload s source hs

/-- All that an execution does to memory: nothing, or a write at `I` whose last byte is inside it (R37, R47). -/
theorem exec_memory {i : Instr} {s t : State} (h : exec i s = .next t) :
    t.font = s.font ∧ (t.memory = s.memory ∨ ∃ bs : List Byte, s.I.toNat + bs.length ≤ 4096 ∧
      t.memory = Memory.writeBytes s.font s.memory s.I.toNat bs) := by
  cases i with
  | ret => rw [exec_ret_frame h]; simp
  | call nnn => rw [exec_call_frame h]; simp
  | skp | sknp =>
    simp at h
    obtain ⟨-, -, rfl⟩ := h
    simp
  | ldVxK x =>
    obtain ⟨-, rfl⟩ | ⟨-, -, rfl⟩ | ⟨-, k, -, rfl⟩ := (exec_ldVxK_eq_next s t x).mp h
    all_goals simp
  | drw | loadRegs =>
    simp at h
    obtain ⟨-, rfl⟩ := h
    simp
  | ldBVx x =>
    obtain ⟨hfit, rfl⟩ := (exec_ldBVx_eq_next s t x).mp h
    exact ⟨rfl, .inr ⟨bcdDigits (s.V.get x), hfit, rfl⟩⟩
  | storeRegs x =>
    obtain ⟨hfit, rfl⟩ := (exec_storeRegs_eq_next s t x).mp h
    exact ⟨rfl, .inr ⟨s.regsUpTo x, by rwa [State.length_regsUpTo], rfl⟩⟩
  | _ => cases h; simp

theorem step_keeps_memoryCanonical (s t : State) (hs : s.MemoryCanonical) (h : step s = .next t) :
    t.MemoryCanonical := by
  obtain ⟨i, -, hexec⟩ := (step_eq_next s t).mp h
  unfold State.MemoryCanonical at hs ⊢
  obtain ⟨hfont, hmem | ⟨bs, hfit, hmem⟩⟩ := exec_memory hexec
  · rwa [hfont, hmem]
  · rw [hfont, hmem]
    exact Memory.wf_writeBytes s.font s.memory s.I.toNat bs hs hfit

theorem State.init_memoryCanonical (s : State) : s.init.MemoryCanonical := Memory.wf_nil s.font

theorem State.loadRom_memoryCanonical (s : State) (source : Option (List Byte)) :
    (s.loadRom source).MemoryCanonical := by
  obtain hload | ⟨bytes, hfit, hload⟩ := s.loadRom_cases source
  · rw [hload]
    exact s.init_memoryCanonical
  · rw [hload]
    exact Memory.wf_writeBytes s.font [] 0x200 bytes (Memory.wf_nil s.font) (by omega)

/-- Settles O56: a step writes inside memory only, a load writes a ROM that fits, and no other move writes memory but
`init`, which lists nothing. -/
theorem memoryStaysCanonical : Obligations.MemoryStaysCanonical :=
  ⟨step_keeps_memoryCanonical, State.move_keeps step_keeps_memoryCanonical (fun _ hs => hs) (fun _ _ hs => hs)
    (fun s _ => s.init_memoryCanonical) fun s source _ => s.loadRom_memoryCanonical source⟩

/-- The largest sum that any instruction makes into a counter is that of `Bnnn` (R25, R84). -/
theorem toNat_add_le_pcBound {w c : Word} (hw : w.toNat ≤ 0xFFF) (hc : c.toNat ≤ 0xFF) :
    (w + c).toNat ≤ 0x10FE := by
  rw [BitVec.toNat_add]
  omega

theorem toNat_skip_le (b : Bool) : (if b then 4 else 2 : Word).toNat ≤ 0xFF := by
  cases b <;> decide

/-- From a counter that was fetched at, an execution leaves `pc` within the bound. -/
theorem exec_pc_le {i : Instr} {s t : State} (hpc : s.pc.toNat ≤ 0xFFE) (hstack : ∀ k, (s.stack.get k).toNat ≤ 0xFFE)
    (h : exec i s = .next t) : t.pc.toNat ≤ 0x10FE := by
  have hnext : (s.pc + 2).toNat ≤ 0x10FE := toNat_add_le_pcBound (by omega) (by decide)
  have hskip (b : Bool) : (s.pc + if b then 4 else 2).toNat ≤ 0x10FE :=
    toNat_add_le_pcBound (by omega) (toNat_skip_le b)
  have htarget (nnn : Addr12) : (zextAddr nnn).toNat ≤ 0xFFF := by
    have := nnn.isLt
    rw [toNat_zextAddr]
    omega
  cases i with
  | jp nnn =>
    cases h
    exact (htarget nnn).trans (by decide)
  | call nnn =>
    obtain ⟨u, -, rfl⟩ := (exec_call_eq_next s t nnn).mp h
    exact (htarget nnn).trans (by decide)
  | ret =>
    obtain ⟨w, u, hpop, rfl⟩ := (exec_ret_eq_next s t).mp h
    obtain ⟨hsp, hw, -⟩ := (State.popPc_eq_ok s u w).mp hpop
    have hw : w.toNat ≤ 0xFFE := by
      rw [hw ⟨u.sp.val, by omega⟩ rfl]
      exact hstack _
    exact toNat_add_le_pcBound (by omega) (by decide)
  | jpV0 nnn =>
    cases h
    have := (s.V.get 0).isLt
    exact toNat_add_le_pcBound (htarget nnn) (by rw [toNat_zextByte]; omega)
  | seImm | sneImm | seReg | sneReg =>
    cases h
    exact hskip _
  | skp x =>
    obtain ⟨k, -, rfl⟩ := (exec_skp_eq_next s t x).mp h
    exact hskip _
  | sknp x =>
    obtain ⟨k, -, rfl⟩ := (exec_sknp_eq_next s t x).mp h
    exact hskip _
  | ldVxK x =>
    obtain ⟨-, rfl⟩ | ⟨-, -, rfl⟩ | ⟨-, k, -, rfl⟩ := (exec_ldVxK_eq_next s t x).mp h
    · exact hpc.trans (by decide)
    · exact hpc.trans (by decide)
    · exact hnext
  | drw | ldBVx | storeRegs | loadRegs =>
    simp at h
    obtain ⟨-, rfl⟩ := h
    exact hnext
  | _ => cases h; exact hnext

/-- Only a call writes the stack, and it pushes the counter it was fetched at (R27, R83). -/
theorem exec_stack_le {i : Instr} {s t : State} (hpc : s.pc.toNat ≤ 0xFFE)
    (hstack : ∀ k, (s.stack.get k).toNat ≤ 0xFFE) (h : exec i s = .next t) (k : Fin 16) :
    (t.stack.get k).toNat ≤ 0xFFE := by
  by_cases hsame : t.stack = s.stack
  · rw [hsame]
    exact hstack k
  · obtain ⟨hcall, -⟩ := specialStateChangesOnlyByItsInstructions i s t h
    obtain ⟨nnn, rfl⟩ := hcall hsame
    obtain ⟨u, hpush, rfl⟩ := (exec_call_eq_next s t nnn).mp h
    obtain ⟨-, -, hget, -⟩ := (State.pushPc_eq_ok s u).mp hpush
    rw [State.setPc_stack, hget k]
    split
    · exact hpc
    · exact hstack k

theorem step_keeps_pcBounded (s t : State) (hs : s.PcBounded) (h : step s = .next t) : t.PcBounded := by
  obtain ⟨-, hstack⟩ := hs
  obtain ⟨i, hfetch, hexec⟩ := (step_eq_next s t).mp h
  obtain ⟨hin, -⟩ := (fetchDecode_eq_ok s i).mp hfetch
  have hpc : s.pc.toNat ≤ 0xFFE := by omega
  exact ⟨exec_pc_le hpc hstack hexec, exec_stack_le hpc hstack hexec⟩

theorem State.init_pcBounded (s : State) : s.init.PcBounded := by
  refine ⟨show (0x200 : Word).toNat ≤ 0x10FE by decide, fun k => ?_⟩
  simp [State.init, State.resetWith, Vector.get_eq_getElem]

/-- A load leaves `pc` and the stack as `init` does. -/
theorem State.loadRom_pcBounded (s : State) (source : Option (List Byte)) : (s.loadRom source).PcBounded := by
  obtain hload | ⟨bytes, -, hload⟩ := s.loadRom_cases source
  · rw [hload]
    exact s.init_pcBounded
  · rw [hload]
    exact s.init_pcBounded

/-- Settles O58: an instruction executes only from a counter that was fetched at, at most 0xFFE. -/
theorem programCounterStaysBounded : Obligations.ProgramCounterStaysBounded :=
  ⟨step_keeps_pcBounded, State.move_keeps step_keeps_pcBounded (fun _ hs => hs) (fun _ _ hs => hs)
    (fun s _ => s.init_pcBounded) fun s source _ => s.loadRom_pcBounded source⟩

end Sys2Proof.Machine

namespace Sys2Proof

/-! ### Decoding what the encoder writes (20_memory.md rule R44, 30_encoding.md rules R64 to R66) -/

/-- The operand of a format comes back as its field; the other fields are not looked at (R61, R62). -/
theorem fieldsOf_formatNNN (op : Nibble) (nnn : Addr12) :
    fieldsOf (formatNNN op nnn) = { fieldsOf (formatNNN op nnn) with nnn := nnn } :=
  congrArg (fun a => { fieldsOf (formatNNN op nnn) with nnn := a }) (nnn_formatNNN op nnn)

theorem fieldsOf_formatXNN (op : Nibble) (x : Reg) (nn : Byte) :
    fieldsOf (formatXNN op x nn) = { fieldsOf (formatXNN op x nn) with x := x, nn := nn } :=
  congrArg₂ (fun a b => { fieldsOf (formatXNN op x nn) with x := a, nn := b }) (x_formatXNN op x nn)
    (nn_formatXNN op x nn)

theorem fieldsOf_formatXYN (op : Nibble) (x y : Reg) (n : Nibble) :
    fieldsOf (formatXYN op x y n) = { fieldsOf (formatXYN op x y n) with x := x, y := y, n := n } := by
  have hx := x_formatXYN op x y n
  have hy := y_formatXYN op x y n
  have hn := n_formatXYN op x y n
  generalize fieldsOf (formatXYN op x y n) = f at hx hy hn ⊢
  rw [← hx, ← hy, ← hn]

/-- The row of the opcode map that is the instruction's own: the constructors stand in the table's order (R66). -/
def Instr.row (i : Instr) : OpcodeRow :=
  opcodeTable.get ⟨i.ctorIdx, show i.ctorIdx < 34 by cases i <;> simp only [Instr.ctorIdx] <;> decide⟩

theorem Instr.row_mem (i : Instr) : i.row ∈ opcodeTable := List.get_mem _ _

/-- The encoder writes the fixed bits of the instruction's own row: the row's mask leaves nothing else of the format. -/
theorem Instr.row_fits_encode (i : Instr) : i.row.fits (encode i) = true := by
  refine beq_iff_eq.mpr ?_
  cases i with
  | cls | ret => rfl
  | jp | call | ldI | jpV0 => exact formatNNN_and_F000 _ _
  | seImm | sneImm | ldImm | addImm | rnd => exact formatXNN_and_F000 _ _ _
  | drw => exact formatXYN_and_F000 _ _ _ _
  | seReg | ldReg | orReg | andReg | xorReg | addReg | subReg | shr | subnReg | shl | sneReg =>
    exact formatXYN_and_F00F _ _ _ _
  | _ => exact formatXNN_and_F0FF _ _ _

/-- The instruction's own row builds it again from the fields of its encoding; the row count of `Dxyn` has four bits there
(R63). -/
theorem Instr.row_build_encode (i : Instr) (h : i.wellFormed = true) : i.row.build (fieldsOf (encode i)) = i := by
  cases i with
  | cls | ret => rfl
  | jp | call | ldI | jpV0 => exact congrArg (Instr.row _).build (fieldsOf_formatNNN _ _)
  | drw x y n =>
    have hn : n < 16 := of_decide_eq_true h
    calc (Instr.drw x y n).row.build (fieldsOf (encode (.drw x y n)))
      _ = .drw x y (BitVec.ofNat 4 n).toNat := congrArg (Instr.row _).build (fieldsOf_formatXYN _ _ _ _)
      _ = .drw x y n := by rw [BitVec.toNat_ofNat, Nat.mod_eq_of_lt hn]
  | seReg | ldReg | orReg | andReg | xorReg | addReg | subReg | shr | subnReg | shl | sneReg =>
    exact congrArg (Instr.row _).build (fieldsOf_formatXYN _ _ _ _)
  | _ => exact congrArg (Instr.row _).build (fieldsOf_formatXNN _ _ _)

theorem decodeWord_encode (i : Instr) (h : i.wellFormed = true) : decodeWord (encode i) = some i := by
  rw [decodeWord_of_row _ i.row i.row_mem i.row_fits_encode, i.row_build_encode h]

theorem joinBytes_eq (hi lo : Byte) : joinBytes hi lo = hi.setWidth 16 <<< 8 ||| lo.setWidth 16 := by
  simp [joinBytes, fieldAt]

/-- The decoder reads the word that the bytes store, and leaves what stands after them. -/
theorem decode_bytesOfWord_append {w : Word} {i : Instr} (h : decodeWord w = some i) (rest : List Byte) :
    decode (bytesOfWord w ++ rest) = .ok (i, rest) := by
  simp [bytesOfWord, decode, joinBytes_bytesOfWord, h]

/-- Settles O3: the encoder's word decodes by the instruction's own row, and its bytes store that word. -/
theorem decodeGivesBackEncodedInstruction : Obligations.DecodeGivesBackEncodedInstruction := fun i rest h =>
  decode_bytesOfWord_append (decodeWord_encode i h) rest

end Sys2Proof

namespace Sys2Proof.Machine

/-! ### Memory after an execution (20_memory.md rules R41, R48, R55) -/

@[simp] theorem State.readByte_setPc (s : State) (w : Word) (a : Nat) : (s.setPc w).readByte a = s.readByte a := rfl

@[simp] theorem State.wordAt_setPc (s : State) (w : Word) (a : Nat) : (s.setPc w).wordAt a = s.wordAt a := rfl

theorem State.readByte_writeBytes (s : State) (a : Nat) (bs : List Byte) (q : Nat) :
    (s.writeBytes a bs).readByte q = if a ≤ q ∧ q < a + bs.length then bs.getD (q - a) 0 else s.readByte q :=
  Memory.read_writeBytes s.font s.memory a bs q

/-- A dump leaves `V[k]` at `I + k` (R149). -/
theorem State.readByte_writeBytes_regsUpTo (s : State) (a : Nat) {x k : Reg} (h : k ≤ x) :
    (s.writeBytes a (s.regsUpTo x)).readByte (a + k.val) = s.V.get k := by
  have hk : k.val ≤ x.val := h
  rw [State.readByte_writeBytes, State.length_regsUpTo, if_pos (by omega), Nat.add_sub_cancel_left,
    State.getD_regsUpTo s x k h]

/-- After a dump of `V[0]` and `V[1]` at least, the word at `I` is made of these two (R44). -/
theorem State.wordAt_writeBytes_regsUpTo (s : State) (a : Nat) {x : Reg} (hx : 1 ≤ x.val) :
    (s.writeBytes a (s.regsUpTo x)).wordAt a = joinBytes (s.V.get 0) (s.V.get 1) :=
  congrArg₂ joinBytes (s.readByte_writeBytes_regsUpTo a (k := 0) (Fin.zero_le x))
    (s.readByte_writeBytes_regsUpTo a (k := 1) hx)

/-- A write changes no byte outside its range. -/
theorem State.mem_range_of_readByte_writeBytes_ne {s : State} {a q : Nat} {bs : List Byte}
    (h : (s.writeBytes a bs).readByte q ≠ s.readByte q) : a ≤ q ∧ q < a + bs.length := by
  by_contra hout
  exact h (by rw [State.readByte_writeBytes, if_neg hout])

/-- Settles O45: the two bytes at `I` are `V[0]` and `V[1]`, and the next fetch reads them there from memory (R44, R55). -/
theorem storedInstructionRunsNext : Obligations.StoredInstructionRunsNext := by
  intro x s t i h hx hI hword
  obtain ⟨hfit, rfl⟩ := (exec_storeRegs_eq_next s t x).mp h
  have hpc : (s.pc + 2).toNat = s.I.toNat := by
    have := s.I.isLt
    rw [BitVec.toNat_add, hI]
    exact Nat.mod_eq_of_lt (show s.pc.toNat + 2 < 65536 by omega)
  have hfetch : ((s.writeBytes s.I.toNat (s.regsUpTo x)).setPc (s.pc + 2)).fetchDecode = .ok i := by
    refine (fetchDecode_eq_ok _ i).mpr ⟨by rw [State.setPc_pc, hpc]; omega, ?_⟩
    rw [State.setPc_pc, hpc, State.wordAt_setPc, State.wordAt_writeBytes_regsUpTo s _ hx, joinBytes_eq, hword]
  rw [step, hfetch, checked_ok]

/-- Every instruction but `Fx33` and `Fx55` leaves memory as it is (R37, R41). -/
theorem exec_keeps_memory {i : Instr} {s t : State} (h : exec i s = .next t) (hbcd : ∀ x, i ≠ .ldBVx x)
    (hdump : ∀ x, i ≠ .storeRegs x) : t.memory = s.memory := by
  cases i with
  | ldBVx x => exact absurd rfl (hbcd x)
  | storeRegs x => exact absurd rfl (hdump x)
  | ret => rw [exec_ret_frame h]
  | call => rw [exec_call_frame h]
  | skp | sknp =>
    simp at h
    obtain ⟨-, -, rfl⟩ := h
    rfl
  | ldVxK x =>
    obtain ⟨-, rfl⟩ | ⟨-, -, rfl⟩ | ⟨-, k, -, rfl⟩ := (exec_ldVxK_eq_next s t x).mp h
    all_goals rfl
  | drw | loadRegs =>
    simp at h
    obtain ⟨-, rfl⟩ := h
    rfl
  | _ => cases h; rfl

/-- Settles O46: a changed byte rules out every instruction but the two writers, and lies in the range of their write. -/
theorem onlyBcdAndDumpWriteMemory : Obligations.OnlyBcdAndDumpWriteMemory := by
  intro i s t a h hne
  by_cases hbcd : ∃ x, i = .ldBVx x
  · obtain ⟨x, rfl⟩ := hbcd
    obtain ⟨-, rfl⟩ := (exec_ldBVx_eq_next s t x).mp h
    rw [State.readByte_setPc] at hne
    obtain ⟨hlo, hhi⟩ := State.mem_range_of_readByte_writeBytes_ne hne
    have : (bcdDigits (s.V.get x)).length = 3 := rfl
    exact .inl ⟨x, rfl, hlo, by omega⟩
  by_cases hdump : ∃ x, i = .storeRegs x
  · obtain ⟨x, rfl⟩ := hdump
    obtain ⟨-, rfl⟩ := (exec_storeRegs_eq_next s t x).mp h
    rw [State.readByte_setPc] at hne
    obtain ⟨hlo, hhi⟩ := State.mem_range_of_readByte_writeBytes_ne hne
    rw [State.length_regsUpTo] at hhi
    exact .inr ⟨x, rfl, hlo, by omega⟩
  · obtain ⟨hfont, -⟩ := exec_memory h
    have hmem := exec_keeps_memory h (not_exists.mp hbcd) (not_exists.mp hdump)
    exact absurd (by rw [State.readByte, hfont, hmem, State.readByte]) hne

end Sys2Proof.Machine

namespace Sys2Proof

/-! ### A word and its fields (30_encoding.md rules R61, R62, R65) -/

theorem toNat_extractLsb' (w : Word) (lo k : Nat) : (w.extractLsb' lo k).toNat = w.toNat / 2 ^ lo % 2 ^ k := by
  rw [BitVec.extractLsb'_toNat, Nat.shiftRight_eq_div_pow]

/-- Settles O59: a field is the word divided down to the field's lowest bit and cut to its width; above `op` nothing is
left to cut. -/
theorem fieldsAreTheBitsOfTheWord : Obligations.FieldsAreTheBitsOfTheWord := by
  intro w
  have hop : w.toNat / 0x1000 % 0x10 = w.toNat / 0x1000 := Nat.mod_eq_of_lt (by omega)
  have hlow (k : Nat) : (w.extractLsb' 0 k).toNat = w.toNat % 2 ^ k := by
    rw [toNat_extractLsb', Nat.pow_zero, Nat.div_one]
  exact ⟨(toNat_extractLsb' w 12 4).trans hop, toNat_extractLsb' w 8 4, toNat_extractLsb' w 4 4, hlow 4, hlow 8, hlow 12⟩

/-- Two neighbouring bit fields are one field. -/
theorem extractLsb'_append (w : Word) (lo k m : Nat) :
    (w.extractLsb' (lo + k) m ++ w.extractLsb' lo k) = w.extractLsb' lo (m + k) :=
  BitVec.extractLsb'_append_extractLsb'_eq_extractLsb' rfl

/-- A word is each format of its own fields: the fields of a format cover all sixteen bits (R62). -/
theorem formatNNN_fieldsOf (w : Word) : formatNNN (fieldsOf w).op (fieldsOf w).nnn = w := calc
  _ = w.extractLsb' 12 4 ++ w.extractLsb' 0 12 := (formatNNN_eq_append _ _).symm
  _ = w.extractLsb' 0 16 := extractLsb'_append w 0 12 4
  _ = w := BitVec.extractLsb'_eq_self

theorem formatXNN_fieldsOf (w : Word) : formatXNN (fieldsOf w).op (fieldsOf w).x (fieldsOf w).nn = w := calc
  _ = w.extractLsb' 12 4 ++ w.extractLsb' 8 4 ++ w.extractLsb' 0 8 := (formatXNN_eq_append _ _ _).symm
  _ = w.extractLsb' 8 8 ++ w.extractLsb' 0 8 := by rw [extractLsb'_append w 8 4 4]
  _ = w.extractLsb' 0 16 := extractLsb'_append w 0 8 8
  _ = w := BitVec.extractLsb'_eq_self

theorem formatXYN_fieldsOf (w : Word) :
    formatXYN (fieldsOf w).op (fieldsOf w).x (fieldsOf w).y (fieldsOf w).n = w := by
  calc formatXYN (fieldsOf w).op (fieldsOf w).x (fieldsOf w).y (fieldsOf w).n
    _ = w.extractLsb' 12 4 ++ w.extractLsb' 8 4 ++ w.extractLsb' 4 4 ++ w.extractLsb' 0 4 :=
      (formatXYN_eq_append _ _ _ _).symm
    _ = w.extractLsb' 8 8 ++ w.extractLsb' 4 4 ++ w.extractLsb' 0 4 := by rw [extractLsb'_append w 8 4 4]
    _ = w.extractLsb' 4 12 ++ w.extractLsb' 0 4 := by rw [extractLsb'_append w 4 4 8]
    _ = w.extractLsb' 0 16 := extractLsb'_append w 0 4 12
    _ = w := BitVec.extractLsb'_eq_self

/-- What a mask leaves of a word is the format of the fields that it compares, the others zero. -/
theorem and_F000_eq (w : Word) : w &&& 0xF000 = formatXNN (fieldsOf w).op 0 0 := by
  rw [← formatXNN_and_F000 _ (fieldsOf w).x (fieldsOf w).nn, formatXNN_fieldsOf]

theorem and_F0FF_eq (w : Word) : w &&& 0xF0FF = formatXNN (fieldsOf w).op 0 (fieldsOf w).nn := by
  rw [← formatXNN_and_F0FF _ (fieldsOf w).x, formatXNN_fieldsOf]

theorem and_F00F_eq (w : Word) : w &&& 0xF00F = formatXYN (fieldsOf w).op 0 0 (fieldsOf w).n := by
  rw [← formatXYN_and_F00F _ (fieldsOf w).x (fieldsOf w).y, formatXYN_fieldsOf]

section
variable {w : Word} {op n : Nibble} {nn : Byte}

/-- A row that compares the first digit only fits the words with that digit. -/
theorem and_F000_eq_iff : w &&& 0xF000 = formatXNN op 0 0 ↔ (fieldsOf w).op = op := by
  rw [and_F000_eq]
  refine ⟨fun h => ?_, fun hop => by rw [hop]⟩
  simpa only [op_formatXNN] using congrArg (fun v => (fieldsOf v).op) h

theorem and_F0FF_eq_iff : w &&& 0xF0FF = formatXNN op 0 nn ↔ (fieldsOf w).op = op ∧ (fieldsOf w).nn = nn := by
  rw [and_F0FF_eq]
  refine ⟨fun h => ?_, fun ⟨hop, hnn⟩ => by rw [hop, hnn]⟩
  have hfields := congrArg fieldsOf h
  exact ⟨by simpa only [op_formatXNN] using congrArg Fields.op hfields,
    by simpa only [nn_formatXNN] using congrArg Fields.nn hfields⟩

theorem and_F00F_eq_iff : w &&& 0xF00F = formatXYN op 0 0 n ↔ (fieldsOf w).op = op ∧ (fieldsOf w).n = n := by
  rw [and_F00F_eq]
  refine ⟨fun h => ?_, fun ⟨hop, hn⟩ => by rw [hop, hn]⟩
  have hfields := congrArg fieldsOf h
  exact ⟨by simpa only [op_formatXYN] using congrArg Fields.op hfields,
    by simpa only [n_formatXYN] using congrArg Fields.n hfields⟩

/-! A word that fits a row is the row's format with the fixed digits of the pattern and the operands of the word. -/

theorem formatNNN_of_and_F000 (h : w &&& 0xF000 = formatXNN op 0 0) : formatNNN op (fieldsOf w).nnn = w := by
  rw [← and_F000_eq_iff.mp h, formatNNN_fieldsOf]

theorem formatXNN_of_and_F000 (h : w &&& 0xF000 = formatXNN op 0 0) :
    formatXNN op (fieldsOf w).x (fieldsOf w).nn = w := by
  rw [← and_F000_eq_iff.mp h, formatXNN_fieldsOf]

theorem formatXYN_of_and_F000 (h : w &&& 0xF000 = formatXNN op 0 0) :
    formatXYN op (fieldsOf w).x (fieldsOf w).y (fieldsOf w).n = w := by
  rw [← and_F000_eq_iff.mp h, formatXYN_fieldsOf]

theorem formatXNN_of_and_F0FF (h : w &&& 0xF0FF = formatXNN op 0 nn) : formatXNN op (fieldsOf w).x nn = w := by
  obtain ⟨hop, hnn⟩ := and_F0FF_eq_iff.mp h
  rw [← hop, ← hnn, formatXNN_fieldsOf]

theorem formatXYN_of_and_F00F (h : w &&& 0xF00F = formatXYN op 0 0 n) :
    formatXYN op (fieldsOf w).x (fieldsOf w).y n = w := by
  obtain ⟨hop, hn⟩ := and_F00F_eq_iff.mp h
  rw [← hop, ← hn, formatXYN_fieldsOf]

end

/-! ### The bytes of a decoded word -/

theorem bytesOfWord_joinBytes (hi lo : Byte) : bytesOfWord (joinBytes hi lo) = [hi, lo] := by
  refine congrArg₂ (fun a b => [a, b]) (BitVec.eq_of_getLsbD_eq fun i hi => ?_) (BitVec.eq_of_getLsbD_eq fun i hi => ?_)
  all_goals
    simp only [joinBytes, BitVec.getLsbD_extractLsb', BitVec.getLsbD_or, getLsbD_fieldAt]
    interval_cases i <;> simp

/-- What a row builds has this row as its own: the constructors stand in the table's order (R66). -/
theorem row_build {r : OpcodeRow} (hr : r ∈ opcodeTable) (f : Fields) : (r.build f).row = r := by
  obtain ⟨k, rfl⟩ := List.get_of_mem hr
  change Fin 34 at k
  fin_cases k <;> rfl

/-- What the instruction's own row builds is well-formed: the row count of `Dxyn` comes from four bits (R63). -/
theorem Instr.wellFormed_of_build {i : Instr} {f : Fields} (hbuild : i.row.build f = i) : i.wellFormed = true := by
  cases i with
  | drw =>
    cases hbuild
    exact decide_eq_true f.n.isLt
  | _ => rfl

/-- The encoder writes again the word that the instruction's own row fits and was built from: the mask's bits are those of
the pattern, and every other bit is in an operand. -/
theorem encode_of_build {w : Word} {i : Instr} (hfits : i.row.fits w = true) (hbuild : i.row.build (fieldsOf w) = i) :
    encode i = w := by
  have hmask : w &&& i.row.mask = i.row.pattern := beq_iff_eq.mp hfits
  refine (congrArg encode hbuild).symm.trans ?_
  clear hfits hbuild
  cases i with
  | cls | ret => exact hmask.symm.trans BitVec.and_allOnes
  | jp | call | ldI | jpV0 => exact formatNNN_of_and_F000 hmask
  | seImm | sneImm | ldImm | addImm | rnd => exact formatXNN_of_and_F000 hmask
  | drw =>
    have hn : BitVec.ofNat 4 (fieldsOf w).n.toNat = (fieldsOf w).n := by simp
    exact (congrArg (formatXYN _ _ _) hn).trans (formatXYN_of_and_F000 hmask)
  | seReg | ldReg | orReg | andReg | xorReg | addReg | subReg | shr | subnReg | shl | sneReg =>
    exact formatXYN_of_and_F00F hmask
  | _ => exact formatXNN_of_and_F0FF hmask

/-- A word that decodes is the encoding of its instruction, which is well-formed. -/
theorem encode_of_decodeWord {w : Word} {i : Instr} (h : decodeWord w = some i) :
    i.wellFormed = true ∧ encode i = w := by
  obtain ⟨r, hr, hfits, rfl⟩ := (decodeWord_eq_some w i).mp h
  have hrow : (r.build (fieldsOf w)).row = r := row_build hr (fieldsOf w)
  have hbuild := congrArg (fun q => q.build (fieldsOf w)) hrow
  rw [← hrow] at hfits
  exact ⟨Instr.wellFormed_of_build hbuild, encode_of_build hfits hbuild⟩

/-- Bytes that decode are the two of the decoded word and the rest (R60). -/
theorem decode_eq_ok {bytes rest : List Byte} {i : Instr} (h : decode bytes = .ok (i, rest)) :
    ∃ hi lo, bytes = hi :: lo :: rest ∧ decodeWord (joinBytes hi lo) = some i := by
  match bytes with
  | [] | [_] => cases h
  | hi :: lo :: bs =>
    cases hword : decodeWord (joinBytes hi lo) with
    | none => simp [decode, hword] at h
    | some j =>
      obtain ⟨rfl, rfl⟩ : j = i ∧ bs = rest := by simpa [decode, hword] using h
      exact ⟨hi, lo, rfl, hword⟩

/-- Settles O4: the bytes hold the word that was decoded, and the encoder writes this word again. -/
theorem decodedBytesAreTheEncoding : Obligations.DecodedBytesAreTheEncoding := by
  intro bytes rest i h
  obtain ⟨hi, lo, rfl, hword⟩ := decode_eq_ok h
  obtain ⟨hwf, hencode⟩ := encode_of_decodeWord hword
  exact ⟨hwf, by rw [hencode, bytesOfWord_joinBytes]; rfl⟩

/-! ### The patterns of the opcode map, digit by digit (30_encoding.md rule R66) -/

section
variable {op x y n : Nibble} {nn : Byte} {nnn : Addr12} {i : Instr}

theorem decodeWord_append_nnn (h : encode i = formatNNN op nnn) (hwf : i.wellFormed = true) :
    decodeWord (op ++ nnn) = some i := by
  rw [formatNNN_eq_append, ← h, decodeWord_encode i hwf]

theorem decodeWord_append_xnn (h : encode i = formatXNN op x.toFin nn) (hwf : i.wellFormed = true) :
    decodeWord (op ++ x ++ nn) = some i := by
  rw [formatXNN_eq_append, ← h, decodeWord_encode i hwf]

theorem decodeWord_append_xyn (h : encode i = formatXYN op x.toFin y.toFin n) (hwf : i.wellFormed = true) :
    decodeWord (op ++ x ++ y ++ n) = some i := by
  rw [formatXYN_eq_append, ← h, decodeWord_encode i hwf]

end

/-- Settles O2: the digits of each pattern are the word that the encoder writes for the row's instruction. -/
theorem everyPatternDecodesWithItsFields : Obligations.EveryPatternDecodesWithItsFields := by
  intro x y n nn nnn
  have hn : BitVec.ofNat 4 n.toNat = n := by simp
  have hdrw : encode (.drw x.toFin y.toFin n.toNat) = formatXYN 0xD x.toFin y.toFin n :=
    congrArg (formatXYN 0xD x.toFin y.toFin) hn
  refine ⟨decodeWord_encode .cls rfl, decodeWord_encode .ret rfl, ?_⟩
  refine ⟨decodeWord_append_nnn rfl rfl, decodeWord_append_nnn rfl rfl, ?_⟩
  refine ⟨decodeWord_append_xnn rfl rfl, decodeWord_append_xnn rfl rfl, decodeWord_append_xyn rfl rfl,
    decodeWord_append_xnn rfl rfl, decodeWord_append_xnn rfl rfl, ?_⟩
  refine ⟨decodeWord_append_xyn rfl rfl, decodeWord_append_xyn rfl rfl, decodeWord_append_xyn rfl rfl,
    decodeWord_append_xyn rfl rfl, decodeWord_append_xyn rfl rfl, decodeWord_append_xyn rfl rfl,
    decodeWord_append_xyn rfl rfl, decodeWord_append_xyn rfl rfl, decodeWord_append_xyn rfl rfl, ?_⟩
  refine ⟨decodeWord_append_xyn rfl rfl, decodeWord_append_nnn rfl rfl, decodeWord_append_nnn rfl rfl,
    decodeWord_append_xnn rfl rfl, decodeWord_append_xyn hdrw (decide_eq_true n.isLt), ?_⟩
  refine ⟨?_, ?_, ?_, ?_, ?_, ?_, ?_, ?_, ?_, ?_, ?_⟩ <;> exact decodeWord_append_xnn rfl rfl

/-- Settles O1: each word is the encoding of its instruction. -/
theorem writtenOutWordsDecode : Obligations.WrittenOutWordsDecode :=
  ⟨decodeWord_encode .cls rfl, decodeWord_encode .ret rfl, decodeWord_encode (.jp 0x204) rfl,
    decodeWord_encode (.seReg 3 4) rfl, decodeWord_encode (.ldImm 10 0x3C) rfl, decodeWord_encode (.shr 2 7) rfl,
    decodeWord_encode (.drw 0 1 5) rfl, decodeWord_encode (.skp 1) rfl, decodeWord_encode (.storeRegs 1) rfl⟩

/-! ### Unknown words (30_encoding.md rules R68, R69) -/

section
variable {w p : Word}

/-! A row fits a word exactly when the digits that its mask compares are those of its pattern (R65). -/

theorem and_F000_eq_pattern_iff (hp : formatXNN (fieldsOf p).op 0 0 = p) :
    w &&& 0xF000 = p ↔ (fieldsOf w).op = (fieldsOf p).op := by
  nth_rw 1 [← hp]
  exact and_F000_eq_iff

theorem and_F0FF_eq_pattern_iff (hp : formatXNN (fieldsOf p).op 0 (fieldsOf p).nn = p) :
    w &&& 0xF0FF = p ↔ (fieldsOf w).op = (fieldsOf p).op ∧ (fieldsOf w).nn = (fieldsOf p).nn := by
  nth_rw 1 [← hp]
  exact and_F0FF_eq_iff

theorem and_F00F_eq_pattern_iff (hp : formatXYN (fieldsOf p).op 0 0 (fieldsOf p).n = p) :
    w &&& 0xF00F = p ↔ (fieldsOf w).op = (fieldsOf p).op ∧ (fieldsOf w).n = (fieldsOf p).n := by
  nth_rw 1 [← hp]
  exact and_F00F_eq_iff

end

theorem and_FFFF_eq (w : Word) : w &&& 0xFFFF = w := BitVec.and_allOnes

/-- The sixteen groups of the opcode map. -/
theorem nibble_cases (d : Nibble) : d = 0x0 ∨ d = 0x1 ∨ d = 0x2 ∨ d = 0x3 ∨ d = 0x4 ∨ d = 0x5 ∨ d = 0x6 ∨ d = 0x7 ∨
    d = 0x8 ∨ d = 0x9 ∨ d = 0xA ∨ d = 0xB ∨ d = 0xC ∨ d = 0xD ∨ d = 0xE ∨ d = 0xF := by
  revert d
  decide

/-- The digits that no row of group 8 ends in. -/
theorem unassigned_alu_digit (n : Nibble) :
    (n = 0x8 ∨ n = 0x9 ∨ n = 0xA ∨ n = 0xB ∨ n = 0xC ∨ n = 0xD ∨ n = 0xF) ↔
      n ≠ 0x0 ∧ n ≠ 0x1 ∧ n ≠ 0x2 ∧ n ≠ 0x3 ∧ n ≠ 0x4 ∧ n ≠ 0x5 ∧ n ≠ 0x6 ∧ n ≠ 0x7 ∧ n ≠ 0xE := by
  revert n
  decide

/-- The two full patterns belong to group 0. -/
theorem ne_of_op_ne_zero {w : Word} (hop : w.extractLsb' 12 4 ≠ 0x0#4) : w ≠ 0x00E0#16 ∧ w ≠ 0x00EE#16 := by
  constructor <;> rintro rfl <;> exact hop rfl

/-- Settles O5: no row fits a word exactly when its group has no row, or its last digits are in no row of its group. -/
theorem unknownWordsByGroup : Obligations.UnknownWordsByGroup := by
  intro w
  have hzero := ne_of_op_ne_zero (w := w)
  simp (disch := decide) only [decodeWord_eq_none, opcodeTable, opcodeRowsLow, opcodeRowsAlu, opcodeRowsHigh,
    opcodeRowsF, List.forall_mem_append, List.forall_mem_cons, OpcodeRow.fits, beq_eq_false_iff_ne, ne_eq, and_FFFF_eq,
    and_F000_eq_pattern_iff, and_F0FF_eq_pattern_iff, and_F00F_eq_pattern_iff, fieldsOf, BitVec.reduceExtractLsb',
    unassigned_alu_digit]
  generalize w.extractLsb' 12 4 = op at *
  obtain rfl | rfl | rfl | rfl | rfl | rfl | rfl | rfl | rfl | rfl | rfl | rfl | rfl | rfl | rfl | rfl :=
    nibble_cases op
  all_goals simp [hzero]

end Sys2Proof

namespace Sys2Proof.Machine

/-! ### The step in the words of R64 (30_encoding.md) -/

/-- Settles O6: the three outcomes are those of fetch and decode, and `joinBytes` is the big-endian word (R44). -/
theorem stepFetchesDecodesExecutes : Obligations.StepFetchesDecodesExecutes := by
  intro s
  refine ⟨fun hpc => (step_eq_fault s _).mpr (.inl ((fetchDecode_eq_error s _).mpr (.inl ⟨hpc, rfl⟩))), fun hpc => ?_⟩
  rw [← joinBytes_eq]
  refine ⟨fun i hi => ?_, fun hnone => ?_⟩
  · rw [step, (fetchDecode_eq_ok s i).mpr ⟨hpc, hi⟩, checked_ok]
  · exact (step_eq_fault s _).mpr (.inl ((fetchDecode_eq_error s _).mpr (.inr ⟨hpc, hnone, rfl⟩)))

/-! ### The program counter after an execution (30_encoding.md rule R67) -/

/-- A counter that can be fetched at does not wrap when an instruction or a skip moves it on (R25). -/
theorem toNat_add_of_pc_le {w c : Word} (hw : w.toNat ≤ 0xFFF) (hc : c.toNat ≤ 0xFF) :
    (w + c).toNat = w.toNat + c.toNat := by
  rw [BitVec.toNat_add]
  omega

/-- A skip taken when its condition holds. -/
theorem toNat_skip_if {w : Word} {b : Bool} {P : Prop} [Decidable P] (hw : w.toNat ≤ 0xFFE) (hb : b = true ↔ P) :
    (w + if b then 4 else 2).toNat = w.toNat + if P then 4 else 2 := by
  rw [toNat_add_of_pc_le (by omega) (toNat_skip_le b), ← if_congr hb rfl rfl]
  cases b <;> rfl

/-- A skip taken when its condition fails. -/
theorem toNat_skip_unless {w : Word} {b : Bool} {P : Prop} [Decidable P] (hw : w.toNat ≤ 0xFFE)
    (hb : b = true ↔ ¬ P) : (w + if b then 4 else 2).toNat = w.toNat + if P then 2 else 4 := by
  rw [toNat_skip_if hw hb, ite_not]

section

variable {s t : State}

/-- A return goes past the call whose address it pops (R81). -/
theorem exec_ret_pc (hstack : ∀ k, (s.stack.get k).toNat ≤ 0xFFE) (h : exec .ret s = .next t) :
    ∃ k : Fin 16, s.sp.val = k.val + 1 ∧ t.pc.toNat = (s.stack.get k).toNat + 2 := by
  obtain ⟨w, u, hpop, rfl⟩ := (exec_ret_eq_next s t).mp h
  obtain ⟨hsp, hw, -⟩ := (State.popPc_eq_ok s u w).mp hpop
  let k : Fin 16 := ⟨u.sp.val, by omega⟩
  have := hstack k
  obtain rfl := hw k rfl
  exact ⟨k, hsp.symm, toNat_add_of_pc_le (by omega) (by decide)⟩

/-- The largest target of `Bnnn` is 0x10FE (R84). -/
theorem exec_jpV0_pc {nnn : Addr12} (h : exec (.jpV0 nnn) s = .next t) :
    t.pc.toNat = nnn.toNat + (s.V.get 0).toNat := by
  obtain rfl := Host.Outcome.next.inj h
  have htarget : (zextAddr nnn).toNat = nnn.toNat := toNat_zextAddr nnn
  have hoffset : (zextByte (s.V.get 0)).toNat = (s.V.get 0).toNat := toNat_zextByte _
  calc (zextAddr nnn + zextByte (s.V.get 0)).toNat
    _ = (zextAddr nnn).toNat + (zextByte (s.V.get 0)).toNat := toNat_add_of_pc_le (by omega) (by omega)
    _ = nnn.toNat + (s.V.get 0).toNat := by rw [htarget, hoffset]

/-- `Fx0A` moves on exactly when a fresh key resolves an armed wait (R133). -/
theorem exec_ldVxK_pc {x : Reg} (hpc : s.pc.toNat ≤ 0xFFE) (h : exec (.ldVxK x) s = .next t) :
    t.pc.toNat =
      s.pc.toNat + if s.kwArmed = true ∧ ∃ k, s.kwSnap.get k = false ∧ s.key.get k = true then 2 else 0 := by
  obtain ⟨hidle, rfl⟩ | ⟨-, hnone, rfl⟩ | ⟨harmed, k, hfresh, rfl⟩ := (exec_ldVxK_eq_next s t x).mp h
  · simp [hidle]
  · rw [if_neg fun ⟨_, hsome⟩ => not_exists.mpr ((firstFreshKey_eq_none _ _).mp hnone) hsome]
    rfl
  · obtain ⟨hk, -⟩ := (firstFreshKey_eq_some _ _ k).mp hfresh
    rw [if_pos ⟨harmed, k, hk⟩]
    exact toNat_add_of_pc_le (by omega) (by decide)

/-- Every instruction but the jumps, the skips and the key wait goes on to the next one. -/
theorem exec_pc_of_not_flow {i : Instr} (hflow : ∀ nnn, i ≠ .jp nnn ∧ i ≠ .call nnn ∧ i ≠ .jpV0 nnn) (hret : i ≠ .ret)
    (himm : ∀ x nn, i ≠ .seImm x nn ∧ i ≠ .sneImm x nn) (hreg : ∀ x y, i ≠ .seReg x y ∧ i ≠ .sneReg x y)
    (hkey : ∀ x, i ≠ .skp x ∧ i ≠ .sknp x ∧ i ≠ .ldVxK x) (h : exec i s = .next t) : t.pc = s.pc + 2 := by
  cases i with
  | jp | call | jpV0 => simp at hflow
  | ret => exact absurd rfl hret
  | seImm | sneImm => simp at himm
  | seReg | sneReg => simp at hreg
  | skp | sknp | ldVxK => simp at hkey
  | drw | ldBVx | storeRegs | loadRegs =>
    simp at h
    obtain ⟨-, rfl⟩ := h
    rfl
  | _ => cases h; rfl

end

/-- Settles O50: each clause is the counter that its instructions leave, and no sum wraps. -/
theorem programCounterAfterEachInstruction : Obligations.ProgramCounterAfterEachInstruction := by
  intro i s t hpc hbound h
  obtain ⟨-, hstack⟩ := hbound
  refine ⟨?jpOrCall, ?jpV0, ?ret, ?seImm, ?sneImm, ?seReg, ?sneReg, ?keySkips, ?keyWait, ?others⟩
  case jpOrCall =>
    rintro nnn (rfl | rfl)
    · cases h
      exact toNat_zextAddr nnn
    · obtain ⟨u, -, rfl⟩ := (exec_call_eq_next s t nnn).mp h
      exact toNat_zextAddr nnn
  case jpV0 => rintro nnn rfl; exact exec_jpV0_pc h
  case ret => rintro rfl; exact exec_ret_pc hstack h
  case seImm => rintro x nn rfl; cases h; exact toNat_skip_if hpc beq_iff_eq
  case sneImm => rintro x nn rfl; cases h; exact toNat_skip_unless hpc bne_iff_ne
  case seReg => rintro x y rfl; cases h; exact toNat_skip_if hpc beq_iff_eq
  case sneReg => rintro x y rfl; cases h; exact toNat_skip_unless hpc bne_iff_ne
  case keySkips =>
    refine fun x k hk => ⟨?_, ?_⟩
    · rintro rfl
      obtain ⟨j, hj, rfl⟩ := (exec_skp_eq_next s t x).mp h
      obtain rfl : j = k := Fin.ext (hj.symm.trans hk)
      exact toNat_skip_if hpc .rfl
    · rintro rfl
      obtain ⟨j, hj, rfl⟩ := (exec_sknp_eq_next s t x).mp h
      obtain rfl : j = k := Fin.ext (hj.symm.trans hk)
      exact toNat_skip_unless hpc (by simp)
  case keyWait => rintro x rfl; exact exec_ldVxK_pc hpc h
  case others =>
    intro hflow hret himm hreg hkey
    rw [exec_pc_of_not_flow hflow hret himm hreg hkey h]
    exact toNat_add_of_pc_le (by omega) (by decide)

end Sys2Proof.Machine

namespace Sys2Proof.Machine

/-! ### Jumps, call and return (40_flow.md) -/

/-- Settles O16: a jump sets the counter to its target, so a jump to its own address sets it to what it is (R82). -/
theorem jumpSetsProgramCounter : Obligations.JumpSetsProgramCounter := by
  refine fun nnn s => ⟨s.setPc (zextAddr nnn), exec_jp s nnn, rfl, toNat_zextAddr nnn, fun hself => ?_⟩
  have htarget : zextAddr nnn = s.pc := BitVec.eq_of_toNat_eq (by rw [toNat_zextAddr, hself])
  rw [htarget, State.setPc_self]

/-- Settles O19: `exec_jpV0_pc` says that the sum does not wrap (R84). -/
theorem jumpWithOffsetAddsV0 : Obligations.JumpWithOffsetAddsV0 := fun nnn s =>
  ⟨s.setPc (zextAddr nnn + zextByte (s.V.get 0)), exec_jpV0 s nnn, rfl, exec_jpV0_pc (exec_jpV0 s nnn)⟩

section

variable {s : State}

/-- There is room for a call below a full stack (R49). -/
theorem State.exists_pushPc (h : s.sp.val < 16) : ∃ t, s.pushPc = .ok t := by
  cases hpush : s.pushPc with
  | ok t => exact ⟨t, rfl⟩
  | error f =>
    obtain ⟨hfull, -⟩ := (State.pushPc_eq_error s f).mp hpush
    omega

/-- There is an entry to pop above an empty stack (R49). -/
theorem State.exists_popPc (h : 0 < s.sp.val) : ∃ w t, s.popPc = .ok (w, t) := by
  cases hpop : s.popPc with
  | ok a => exact ⟨a.1, a.2, rfl⟩
  | error f =>
    obtain ⟨hempty, -⟩ := (State.popPc_eq_error s f).mp hpop
    omega

theorem exec_call_eq_fault (nnn : Addr12) (f : Fault) :
    exec (.call nnn) s = .fault f ↔ s.sp.val = 16 ∧ f = .addressOutOfRange .stackPush 16 := by
  simp [exec, execCall, checked_eq_fault, State.pushPc_eq_error]

theorem exec_ret_eq_fault (f : Fault) :
    exec .ret s = .fault f ↔ s.sp.val = 0 ∧ f = .addressOutOfRange .stackPop 0 := by
  simp [exec, execRet, checked_eq_fault, State.popPc_eq_error]

end

/-- Settles O17: below a full stack the push succeeds, and the jump after it writes `pc` alone (R83, decision D1). -/
theorem callPushesItsOwnAddress : Obligations.CallPushesItsOwnAddress := by
  refine fun nnn s => ⟨fun hroom => ?_, fun hfull => (exec_call_eq_fault nnn _).mpr ⟨hfull, rfl⟩⟩
  obtain ⟨t, hpush⟩ := State.exists_pushPc hroom
  obtain ⟨-, hsp, hstack, -⟩ := (State.pushPc_eq_ok s t).mp hpush
  have hcall : exec (.call nnn) s = .next (t.setPc (zextAddr nnn)) := (exec_call_eq_next s _ nnn).mpr ⟨t, hpush, rfl⟩
  exact ⟨_, hcall, exec_call_frame hcall, toNat_zextAddr nnn, hsp, hstack⟩

/-- Settles O18: above an empty stack the pop answers the entry below `sp` and keeps it (R81, decision D1). -/
theorem returnResumesAfterTheCall : Obligations.ReturnResumesAfterTheCall := by
  refine fun s => ⟨fun k hk => ?_, fun hempty => (exec_ret_eq_fault _).mpr ⟨hempty, rfl⟩⟩
  obtain ⟨w, t, hpop⟩ := State.exists_popPc (s := s) (by omega)
  obtain ⟨hsp, hentry, -⟩ := (State.popPc_eq_ok s t w).mp hpop
  have hk : k.val = t.sp.val := by omega
  have hret : exec .ret s = .next (t.setPc (w + 2)) := (exec_ret_eq_next s _).mpr ⟨w, t, hpop, rfl⟩
  exact ⟨_, hret, exec_ret_frame hret, hk.symm, by rw [State.setPc_pc, hentry k hk]⟩

/-- Settles O20: the entry that the return pops is the one that the call pushed, the call's own address (R81, R83). -/
theorem callThenReturnRoundTrip : Obligations.CallThenReturnRoundTrip := by
  intro nnn s hroom
  obtain ⟨t, hcall, htframe, -, htsp, htstack⟩ := (callPushesItsOwnAddress nnn s).1 hroom
  obtain ⟨u, hret, huframe, husp, hupc⟩ := (returnResumesAfterTheCall t).1 ⟨s.sp.val, hroom⟩ htsp
  have hsp : u.sp = s.sp := Fin.ext husp
  have hpc : u.pc = s.pc + 2 := by rw [hupc, htstack, if_pos rfl]
  have hstack : u.stack = t.stack := by rw [huframe]
  refine ⟨t, u, hcall, hret, ?frame, fun k hk => ?entry⟩
  case frame => calc
    u = { t with sp := s.sp, pc := s.pc + 2 } := by rw [← hsp, ← hpc, ← huframe]
    _ = { s with stack := t.stack, pc := s.pc + 2 } := by rw [htframe]
    _ = { s with stack := u.stack, pc := s.pc + 2 } := by rw [hstack]
  case entry => rw [hstack, htstack, if_neg hk]

end Sys2Proof.Machine

namespace Sys2Proof.Machine

/-! ### Skips on registers (41_skip.md) -/

/-- The one write of a skip, by the condition that its test decides (R90). -/
theorem State.setPc_skip (s : State) {c : Bool} {P : Prop} [Decidable P] (hc : c = true ↔ P) :
    s.setPc (s.pc + if c then 4 else 2) = { s with pc := if P then s.pc + 4 else s.pc + 2 } := by
  rw [if_congr hc rfl rfl, add_ite]
  rfl

/-- Settles O21: `==` and `!=` on bytes decide the conditions `=` and `≠` of the four skips (R91 to R94). -/
theorem registerSkipsSetProgramCounter : Obligations.RegisterSkipsSetProgramCounter := by
  intro x y nn s
  refine ⟨?seImm, ?sneImm, ?seReg, ?sneReg⟩
  case seImm => rw [exec_seImm, s.setPc_skip beq_iff_eq]
  case sneImm => rw [exec_sneImm, s.setPc_skip bne_iff_ne]
  case seReg => rw [exec_seReg, s.setPc_skip beq_iff_eq]
  case sneReg => rw [exec_sneReg, s.setPc_skip bne_iff_ne]

end Sys2Proof.Machine

namespace Sys2Proof.Machine

/-! ### Immediate loads, immediate add and random (42_immediate.md) -/

/-- The register that was written reads the new value. -/
theorem State.get_writeV_self (s : State) (x : Reg) (b : Byte) : (s.writeV x b).V.get x = b := by
  rw [State.get_writeV, if_pos rfl]

/-- A register that was not written keeps its value. -/
theorem State.get_writeV_of_ne (s : State) {x q : Reg} (b : Byte) (hq : q ≠ x) :
    (s.writeV x b).V.get q = s.V.get q := by
  rw [State.get_writeV, if_neg hq]

/-- A draw is the generator's value modulo `nn + 1`: a byte holds it, since `nn + 1` is at most 256 (R104). -/
theorem toNat_drawBelow (k : Nat) (nn : Byte) : (drawBelow k nn).toNat = Config.random k % (nn.toNat + 1) := by
  have hdraw : Config.random k % (nn.toNat + 1) < nn.toNat + 1 := Nat.mod_lt _ nn.toNat.succ_pos
  rw [drawBelow, BitVec.toNat_ofNat, Nat.mod_eq_of_lt (by omega)]

/-- Settles O22: the instruction writes `V[x]` and goes on (R101). -/
theorem loadImmediateWritesRegister : Obligations.LoadImmediateWritesRegister := fun x nn s =>
  ⟨_, exec_ldImm s x nn, rfl, s.get_writeV x nn⟩

/-- Settles O23: a sum of bytes is taken modulo 256, and `V[x]` is the only register written (R102). -/
theorem addImmediateWrapsWithoutFlag : Obligations.AddImmediateWrapsWithoutFlag := by
  refine fun x nn s => ⟨_, exec_addImm s x nn, rfl, ?sum, fun q hq => s.get_writeV_of_ne _ hq⟩
  case sum => rw [State.setPc_V, State.get_writeV_self, BitVec.toNat_add]

/-- Settles O24: widening an address to a word keeps its value (R103). -/
theorem loadAddressRegister : Obligations.LoadAddressRegister := fun nnn s =>
  ⟨_, exec_ldI s nnn, rfl, toNat_zextAddr nnn⟩

/-- Settles O25: `V[x]` is the draw at the counter before it goes on (R104, decision D9). -/
theorem randomIsAtMostItsLimit : Obligations.RandomIsAtMostItsLimit := by
  intro x nn s
  have hdraw : (s.countDraw.writeV x (drawBelow s.draws nn)).V.get x = drawBelow s.draws nn :=
    s.countDraw.get_writeV_self x _
  refine ⟨_, exec_rnd s x nn, rfl, ?value, ?limit, rfl, fun q hq => s.countDraw.get_writeV_of_ne _ hq⟩
  case value => rw [State.setPc_V, hdraw, toNat_drawBelow]
  case limit => rw [State.setPc_V, hdraw]; exact drawBelow_le s.draws nn

end Sys2Proof.Machine

namespace Sys2Proof.Machine

/-! ### The ALU group (43_alu.md) -/

/-- Settles O26: the instruction writes `V[x]` and goes on (R111). -/
theorem copyRegister : Obligations.CopyRegister := fun x y s => ⟨_, exec_ldReg s x y, rfl, s.get_writeV x _⟩

/-- Settles O27: each of the three writes `V[x]` and goes on, with no flag (R112, R113, R114). -/
theorem bitwiseOperations : Obligations.BitwiseOperations := fun x y s =>
  ⟨⟨_, exec_orReg s x y, rfl, s.get_writeV x _⟩, ⟨_, exec_andReg s x y, rfl, s.get_writeV x _⟩,
    ⟨_, exec_xorReg s x y, rfl, s.get_writeV x _⟩⟩

theorem toNat_carryOut (a b : Byte) : (carryOut a b).toNat = if 255 < a.toNat + b.toNat then 1 else 0 :=
  Bool.cond_decide _ _ _

theorem toNat_noBorrow (a b : Byte) : (noBorrow a b).toNat = if a.toNat < b.toNat then 0 else 1 := by
  calc (noBorrow a b).toNat
    _ = if b.toNat ≤ a.toNat then 1 else 0 := Bool.cond_decide _ _ _
    _ = if a.toNat < b.toNat then 0 else 1 := by rw [← ite_not, if_congr Nat.not_le rfl rfl]

theorem toNat_lowBitOut (a : Byte) : (lowBitOut a).toNat = a.toNat % 2 := by
  rw [lowBitOut, ← BitVec.testBit_toNat, Nat.toNat_testBit, Nat.pow_zero, Nat.div_one]

/-- A byte has no bit above bit 7, so the quotient by 128 is bit 7 alone. -/
theorem toNat_highBitOut (a : Byte) : (highBitOut a).toNat = a.toNat / 128 := by
  have hbyte : a.toNat < 256 := a.isLt
  rw [highBitOut, ← BitVec.testBit_toNat, Nat.toNat_testBit, Nat.mod_eq_of_lt (by omega)]

/-- The difference of bytes in the form of R116: the borrow is added before the subtraction. -/
theorem toNat_sub_byte (a b : Byte) : (a - b).toNat = (256 + a.toNat - b.toNat) % 256 := by
  have hbyte : b.toNat < 256 := b.isLt
  rw [BitVec.toNat_sub, ← Nat.sub_add_comm hbyte.le]

theorem toNat_ushiftRight_one (a : Byte) : (a >>> 1).toNat = a.toNat / 2 := by
  rw [BitVec.toNat_ushiftRight, Nat.shiftRight_one]

theorem toNat_shiftLeft_one (a : Byte) : (a <<< 1).toNat = 2 * a.toNat % 256 := by
  rw [BitVec.toNat_shiftLeft, Nat.shiftLeft_eq, Nat.pow_one, Nat.mul_comm]

/-- The result and then the flag (R110), as numbers: the flag stands in `VF` for every `x`, the result in every other
`V[x]`, and no other register is written. -/
theorem exec_writes_result_then_flag {i : Instr} {s : State} {x : Reg} {b : Byte} {f : Bool} {flag result : Nat}
    (hexec : exec i s = writeRegFlagNext x b f s) (hflag : f.toNat = flag) (hresult : b.toNat = result) :
    ∃ t, exec i s = .next t ∧ t = { s with V := t.V, pc := s.pc + 2 } ∧ (t.V.get 15).toNat = flag ∧
      (x ≠ 15 → (t.V.get x).toNat = result) ∧ ∀ q, q ≠ x → q ≠ 15 → t.V.get q = s.V.get q := by
  refine ⟨_, hexec, rfl, ?registers⟩
  rw [State.advance_eq, State.setPc_V]
  refine ⟨?flag, fun hx => ?result, fun q hq hq15 => ?frame⟩
  case flag =>
    rw [State.get_writeV_writeFlag, if_pos rfl, ← hflag]
    cases f <;> rfl
  case result => rw [State.get_writeV_writeFlag, if_neg hx, if_pos rfl, hresult]
  case frame => rw [State.get_writeV_writeFlag, if_neg hq15, if_neg hq]

/-- Settles O28: the carry out is the exact sum above 255, and the sum is taken modulo 256 (R115). -/
theorem addWritesSumThenCarry : Obligations.AddWritesSumThenCarry := fun _ _ _ =>
  exec_writes_result_then_flag rfl (toNat_carryOut _ _) (BitVec.toNat_add _ _)

/-- Settles O29: the flag is no borrow of `V[x] - V[y]` (R116). -/
theorem subtractWritesDifferenceThenNoBorrow : Obligations.SubtractWritesDifferenceThenNoBorrow := fun _ _ _ =>
  exec_writes_result_then_flag rfl (toNat_noBorrow _ _) (toNat_sub_byte _ _)

/-- Settles O30: the same with the operands exchanged (R118). -/
theorem reverseSubtractWritesDifferenceThenNoBorrow : Obligations.ReverseSubtractWritesDifferenceThenNoBorrow :=
  fun _ _ _ => exec_writes_result_then_flag rfl (toNat_noBorrow _ _) (toNat_sub_byte _ _)

/-- Settles O31: a shift right by 1 is the half, and the bit shifted out is the remainder (R117). -/
theorem shiftRightInPlace : Obligations.ShiftRightInPlace := fun _ _ _ =>
  exec_writes_result_then_flag rfl (toNat_lowBitOut _) (toNat_ushiftRight_one _)

/-- Settles O32: a shift left by 1 is the double modulo 256, and the bit shifted out is bit 7 (R119). -/
theorem shiftLeftInPlace : Obligations.ShiftLeftInPlace := fun _ _ _ =>
  exec_writes_result_then_flag rfl (toNat_highBitOut _) (toNat_shiftLeft_one _)

end Sys2Proof.Machine

namespace Sys2Proof.Machine

/-! ### Display (44_display.md) -/

@[simp] theorem pixel_clearFb (px : Fin 64) (py : Fin 32) : pixel clearFb px py = false := by
  simp [pixel, clearFb, Vector.get_eq_getElem]

/-- Settles O33: the instruction replaces the framebuffer by the clear screen and goes on (R126). -/
theorem clearDisplay : Obligations.ClearDisplay := fun s => ⟨_, exec_cls s, rfl, pixel_clearFb⟩

section

variable (s : State) (x y : Reg) (n : Nat)

/-- The bytes that `Dxyn` reads cover a pixel exactly when `State.spriteOver` says so: row `k` is the byte at `I + k`
(R127). -/
theorem spriteCovers_readBytes (px : Fin 64) (py : Fin 32) :
    spriteCovers (s.V.get x).toNat (s.V.get y).toNat (s.readBytes s.I.toNat n) px py = s.spriteOver x y n px py := by
  rw [spriteCovers, State.readBytes, Memory.length_readBytes, State.spriteOver, Bool.eq_iff_iff, Bool.and_eq_true,
    Bool.and_eq_true]
  refine and_congr_right fun hin => ?_
  have hrow : py.val - (s.V.get y).toNat < n := by
    obtain ⟨hlo, hhi, -⟩ := of_decide_eq_true hin
    omega
  rw [Memory.getD_readBytes _ _ _ _ _ hrow]
  rfl

theorem pixel_drawingOf (px : Fin 64) (py : Fin 32) :
    pixel (drawingOf s x y n).fb px py = (pixel s.fb px py ^^ s.spriteOver x y n px py) := by
  rw [drawingOf, (drawRows_spec _ _ _ _).1, spriteCovers_readBytes]

theorem collision_drawingOf : (drawingOf s x y n).collision = true ↔
    ∃ px py, pixel s.fb px py = true ∧ s.spriteOver x y n px py = true := by
  rw [drawingOf, (drawRows_spec _ _ _ _).2]
  simp only [spriteCovers_readBytes, Bool.false_eq_true, false_or]

theorem exec_drw_eq_fault (f : Fault) : exec (.drw x y n) s = .fault f ↔
    (0 < n ∧ 4096 < s.I.toNat + n) ∧ f = .addressOutOfRange .dataRead s.I.toNat := by
  simp [exec, execDrw, checked_eq_fault, checkRange_eq_error]

end

/-- Settles O34: `drawingOf` gives the picture and the collision, and `VF` is the only register written (R127). -/
theorem drawInvertsPixelsAndReportsCollision : Obligations.DrawInvertsPixelsAndReportsCollision := by
  refine fun x y n s => ⟨fun hfit => ?completes, fun ⟨hpos, hout⟩ => ?faults⟩
  case faults => exact (exec_drw_eq_fault s x y n _).mpr ⟨⟨hpos, by omega⟩, rfl⟩
  case completes =>
    have hrange : n = 0 ∨ s.I.toNat + n ≤ 4096 := by omega
    refine ⟨_, (exec_drw_eq_next s _ x y n).mpr ⟨hrange, rfl⟩, rfl, pixel_drawingOf s x y n, ?flag, ?frame⟩
    case flag =>
      rw [State.setPc_V, State.get_writeV_self]
      exact if_congr (collision_drawingOf s x y n) rfl rfl
    case frame => exact fun q hq => State.get_writeV_of_ne _ _ hq

/-- Which pixels a sprite covers depends on its two coordinates, on `I` and on memory only. -/
theorem State.spriteOver_congr {s t : State} {x y : Reg} (hx : t.V.get x = s.V.get x) (hy : t.V.get y = s.V.get y)
    (hI : t.I = s.I) (hmem : ∀ a, t.readByte a = s.readByte a) (n : Nat) : t.spriteOver x y n = s.spriteOver x y n := by
  funext px py
  simp only [State.spriteOver, hx, hy, hI, hmem]

/-- Settles O35: both draws invert the same pixels, so each pixel is inverted twice or not at all, and a pixel under the
sprite is set for the second draw exactly when it was clear before the first (R128). -/
theorem drawingTwiceRestoresTheScreen : Obligations.DrawingTwiceRestoresTheScreen := by
  intro x y n s t h hx hy
  obtain ⟨hfit, -⟩ := (exec_drw_eq_next s t x y n).mp h
  obtain ⟨t', ht', hframe, hfirst, -⟩ := (drawInvertsPixelsAndReportsCollision x y n s).1 (by omega)
  obtain rfl : t = t' := Host.Outcome.next.inj (h.symm.trans ht')
  have hI : t.I = s.I := by rw [hframe]
  have hmem (a : Nat) : t.readByte a = s.readByte a := by rw [hframe]; rfl
  obtain ⟨u, hu, -, hsecond, hflag, -⟩ := (drawInvertsPixelsAndReportsCollision x y n t).1 (by rw [hI]; omega)
  rw [State.spriteOver_congr hx hy hI hmem] at hsecond hflag
  refine ⟨u, hu, framebuffer_ext _ _ fun px py => ?restored, ?collision⟩
  case restored => rw [hsecond, hfirst, Bool.xor_assoc, Bool.xor_self, Bool.xor_false]
  case collision =>
    have hmet (px : Fin 64) (py : Fin 32) : pixel t.fb px py = true ∧ s.spriteOver x y n px py = true ↔
        s.spriteOver x y n px py = true ∧ pixel s.fb px py = false := by
      rw [and_comm, hfirst]
      exact and_congr_right fun hover => by rw [hover, Bool.xor_true, Bool.not_eq_true']
    rw [hflag]
    simp [hmet]

end Sys2Proof.Machine

namespace Sys2Proof.Machine

/-! ### The key wait and the key skips (45_keyboard.md) -/

/-- Only an `Fx0A` changes whether the wait is armed, so one that is armed after an execution was armed before it, or the
instruction is an `Fx0A` (R37). -/
theorem exec_armed_cases {i : Instr} {s t : State} (h : exec i s = .next t) (harmed : t.kwArmed = true) :
    s.kwArmed = true ∨ ∃ x, i = .ldVxK x := by
  by_cases hsame : t.kwArmed = s.kwArmed
  · exact .inl (hsame ▸ harmed)
  · obtain ⟨-, -, -, -, -, -, hwait, -⟩ := specialStateChangesOnlyByItsInstructions i s t h
    exact .inr (hwait (.inl hsame))

/-- An `Fx0A` that leaves the wait armed leaves the counter and memory as well, so it is fetched again (R133). -/
theorem exec_ldVxK_fetchDecode {x : Reg} {s t : State} (h : exec (.ldVxK x) s = .next t) (harmed : t.kwArmed = true) :
    t.fetchDecode = s.fetchDecode := by
  obtain ⟨-, rfl⟩ | ⟨-, -, rfl⟩ | ⟨-, k, -, rfl⟩ := (exec_ldVxK_eq_next s t x).mp h
  · exact fetchDecode_congr s s.armKeyWait rfl fun _ => rfl
  · rfl
  · cases harmed

theorem step_keeps_keyWaitAtPc (s t : State) (hs : s.KeyWaitAtPc) (h : step s = .next t) : t.KeyWaitAtPc := by
  intro harmed
  obtain ⟨i, hfetch, hexec⟩ := (step_eq_next s t).mp h
  obtain ⟨x, rfl⟩ : ∃ x, i = .ldVxK x := by
    obtain hbefore | hwait := exec_armed_cases hexec harmed
    · obtain ⟨x, hx⟩ := hs hbefore
      exact ⟨x, Except.ok.inj (hfetch.symm.trans hx)⟩
    · exact hwait
  exact ⟨x, (exec_ldVxK_fetchDecode hexec harmed).trans hfetch⟩

theorem State.keyWaitAtPc_of_idle {s : State} (h : s.kwArmed = false) : s.KeyWaitAtPc := fun harmed =>
  nomatch h.symm.trans harmed

/-- A load leaves the wait idle, as `init` does (R190, R195). -/
theorem State.loadRom_kwArmed (s : State) (source : Option (List Byte)) : (s.loadRom source).kwArmed = false := by
  obtain hload | ⟨bytes, -, hload⟩ := s.loadRom_cases source
  all_goals
    rw [hload]
    rfl

/-- Settles O57: a step that leaves the wait armed ran an `Fx0A` that stays at its address, the timers and the keyboard are
not looked at by a fetch, and a re-init disarms. -/
theorem armedKeyWaitStaysAtItsInstruction : Obligations.ArmedKeyWaitStaysAtItsInstruction :=
  ⟨step_keeps_keyWaitAtPc, State.move_keeps step_keeps_keyWaitAtPc (fun _ hs => hs) (fun _ _ hs => hs)
    (fun _ _ => State.keyWaitAtPc_of_idle rfl) fun s source _ => State.keyWaitAtPc_of_idle (s.loadRom_kwArmed source)⟩

/-- Settles O37: the three clauses are the three ways in which an `Fx0A` completes (R133, decisions D7, D21). -/
theorem keyWaitArmsWaitsResolves : Obligations.KeyWaitArmsWaitsResolves := by
  intro x s
  refine ⟨fun hidle => ?arms, fun harmed hnone => ?waits, fun harmed k hup hdown hlowest => ?resolves⟩
  case arms => exact (exec_ldVxK_eq_next s _ x).mpr (.inl ⟨hidle, rfl⟩)
  case waits => exact (exec_ldVxK_eq_next s s x).mpr (.inr (.inl ⟨harmed, (firstFreshKey_eq_none _ _).mpr hnone, rfl⟩))
  case resolves =>
    have hfresh : firstFreshKey s.kwSnap s.key = some k := (firstFreshKey_eq_some _ _ k).mpr ⟨⟨hup, hdown⟩, hlowest⟩
    have hbyte : (BitVec.ofNat 8 k.val).toNat = k.val := Nat.mod_eq_of_lt (by omega)
    refine ⟨_, (exec_ldVxK_eq_next s _ x).mpr (.inr (.inr ⟨harmed, k, hfresh, rfl⟩)), rfl, ?key,
      fun q hq => s.get_writeV_of_ne _ hq⟩
    case key => rw [State.setPc_V, State.disarmKeyWait_V, State.get_writeV_self, hbyte]

/-- Settles O36: the key that the whole byte names decides the skip, and a byte that names none faults in the check (R130 to
R132, decision D6). -/
theorem keySkipsTestOneKey : Obligations.KeySkipsTestOneKey := by
  refine fun x s => ⟨fun k hk => ⟨?held, ?notHeld⟩, fun hbig => ?faults⟩
  case held => exact (exec_skp_eq_next s _ x).mpr ⟨k, hk, s.setPc_skip .rfl⟩
  case notHeld => exact (exec_sknp_eq_next s _ x).mpr ⟨k, hk, s.setPc_skip (.of_eq (Bool.not_eq_true' _))⟩
  case faults =>
    have hcheck := (checkKey_eq_error (s.V.get x) _).mpr ⟨hbig, rfl⟩
    exact ⟨(checked_eq_fault _ _ _).mpr (.inl hcheck), (checked_eq_fault _ _ _).mpr (.inl hcheck)⟩

end Sys2Proof.Machine

namespace Sys2Proof.Machine

/-! ### Timers (46_timers.md) -/

/-- Settles O38: the read writes `V[x]` and goes on, each of the two writes sets its timer and goes on (R141 to R143). -/
theorem timerAccessMovesTheByte : Obligations.TimerAccessMovesTheByte := fun x s =>
  ⟨⟨_, exec_ldVxDT s x, rfl, s.get_writeV x s.DT⟩, exec_ldDTVx s x, exec_ldSTVx s x⟩

end Sys2Proof.Machine

namespace Sys2Proof.Machine

/-! ### Address register and memory (47_index_memory.md) -/

/-- Settles O39: a sum of words is taken modulo 65536, and `I` is the only register written (R146, decision D12). -/
theorem addToAddressRegisterWraps : Obligations.AddToAddressRegisterWraps := by
  refine fun x s => ⟨_, exec_addIVx s x, rfl, ?_⟩
  rw [State.setPc_I, State.setI_I, BitVec.toNat_add, toNat_zextByte]

/-- Settles O40: five times a byte fits a word (R147). -/
theorem fontAddressIsFiveTimesTheByte : Obligations.FontAddressIsFiveTimesTheByte := fun x s =>
  ⟨_, exec_ldFVx s x, rfl, toNat_glyphAddr (s.V.get x)⟩

/-- The check of the `n + 1` bytes from `base` fails exactly when the last one lies past 0xFFF (R47, decision D20). -/
theorem checkRange_succ_eq_error (kind : AccessKind) (base : Word) (n : Nat) (f : Fault) :
    checkRange kind base (n + 1) = .error f ↔
      0xFFF < base.toNat + n ∧ f = .addressOutOfRange kind base.toNat := by
  rw [checkRange_eq_error]
  exact and_congr_left' (by omega)

section

variable {s : State} (x : Reg)

theorem exec_ldBVx_eq_fault (f : Fault) : exec (.ldBVx x) s = .fault f ↔
    0xFFF < s.I.toNat + 2 ∧ f = .addressOutOfRange .dataWrite s.I.toNat := by
  simp [exec, execLdBVx, checked_eq_fault, checkRange_succ_eq_error _ _ 2]

theorem exec_storeRegs_eq_fault (f : Fault) : exec (.storeRegs x) s = .fault f ↔
    0xFFF < s.I.toNat + x.val ∧ f = .addressOutOfRange .dataWrite s.I.toNat := by
  simp [exec, execStoreRegs, checked_eq_fault, checkRange_succ_eq_error]

theorem exec_loadRegs_eq_fault (f : Fault) : exec (.loadRegs x) s = .fault f ↔
    0xFFF < s.I.toNat + x.val ∧ f = .addressOutOfRange .dataRead s.I.toNat := by
  simp [exec, execLoadRegs, checked_eq_fault, checkRange_succ_eq_error]

end

/-- A byte inside the range of a write is the byte written there. -/
theorem State.readByte_writeBytes_add (s : State) (a : Nat) (bs : List Byte) {k : Nat} (hk : k < bs.length) :
    (s.writeBytes a bs).readByte (a + k) = bs.getD k 0 := by
  rw [State.readByte_writeBytes, if_pos (by omega), Nat.add_sub_cancel_left]

/-- A byte outside the range of a write keeps its value. -/
theorem State.readByte_writeBytes_of_out {s : State} {a q : Nat} {bs : List Byte} (h : q < a ∨ a + bs.length ≤ q) :
    (s.writeBytes a bs).readByte q = s.readByte q := by
  rw [State.readByte_writeBytes, if_neg (by omega)]

/-- The digits of a byte, none of them cut by the byte that holds it (R148). -/
theorem toNat_bcdDigits (b : Byte) : ((bcdDigits b).getD 0 0).toNat = b.toNat / 100 ∧
    ((bcdDigits b).getD 1 0).toNat = b.toNat / 10 % 10 ∧ ((bcdDigits b).getD 2 0).toNat = b.toNat % 10 := by
  have := b.isLt
  exact ⟨Nat.mod_eq_of_lt (by omega), Nat.mod_eq_of_lt (by omega), Nat.mod_eq_of_lt (by omega)⟩

/-- Settles O41: byte `k` from `I` is digit `k` (R148, decisions D1, D12). -/
theorem bcdStoresThreeDigits : Obligations.BcdStoresThreeDigits := by
  refine fun x s => ⟨fun hfit => ?completes, fun hout => (exec_ldBVx_eq_fault x _).mpr ⟨hout, rfl⟩⟩
  have hstored (k : Nat) (hk : k < 3) : (s.writeBytes s.I.toNat (bcdDigits (s.V.get x))).readByte (s.I.toNat + k) =
      (bcdDigits (s.V.get x)).getD k 0 := s.readByte_writeBytes_add _ _ hk
  obtain ⟨hhundreds, htens, hones⟩ := toNat_bcdDigits (s.V.get x)
  refine ⟨_, (exec_ldBVx_eq_next s _ x).mpr ⟨by omega, rfl⟩, rfl, ?hundreds, ?tens, ?ones, fun a ha => ?frame⟩
  case hundreds => exact (congrArg BitVec.toNat (hstored 0 (by decide))).trans hhundreds
  case tens => exact (congrArg BitVec.toNat (hstored 1 (by decide))).trans htens
  case ones => exact (congrArg BitVec.toNat (hstored 2 (by decide))).trans hones
  case frame =>
    exact State.readByte_writeBytes_of_out (s := s) (bs := bcdDigits (s.V.get x)) (ha.imp_right Nat.succ_le_of_lt)

/-- Settles O42: byte `k` of the dump is `V[k]` (R149, decisions D1, D12). -/
theorem dumpStoresRegistersInOrder : Obligations.DumpStoresRegistersInOrder := by
  refine fun x s => ⟨fun hfit => ?completes, fun hout => (exec_storeRegs_eq_fault x _).mpr ⟨hout, rfl⟩⟩
  refine ⟨_, (exec_storeRegs_eq_next s _ x).mpr ⟨by omega, rfl⟩, rfl, fun k hk => ?stored, fun a ha => ?frame⟩
  case stored => exact s.readByte_writeBytes_regsUpTo s.I.toNat hk
  case frame =>
    rw [State.readByte_setPc]
    exact State.readByte_writeBytes_of_out (by rw [State.length_regsUpTo]; omega)

/-- A load of `n` bytes puts the byte at `a + q` into every register `V[q]` below `n` and keeps the others (R150). -/
theorem State.get_loadRegsFrom_readBytes (s : State) (a n : Nat) (q : Reg) :
    (s.loadRegsFrom (s.readBytes a n)).V.get q = if q.val < n then s.readByte (a + q.val) else s.V.get q := by
  rw [State.loadRegsFrom_V, get_loadFrom, State.readBytes, Memory.length_readBytes]
  by_cases hq : q.val < n
  · rw [if_pos (by omega), if_pos hq]
    exact Memory.getD_readBytes s.font s.memory a n q.val hq
  · rw [if_neg (by omega), if_neg hq]

/-- Settles O43: the registers below `x + 1` are those up to `x` (R150, decisions D1, D12). -/
theorem loadFillsRegistersInOrder : Obligations.LoadFillsRegistersInOrder := by
  refine fun x s => ⟨fun hfit => ?completes, fun hout => (exec_loadRegs_eq_fault x _).mpr ⟨hout, rfl⟩⟩
  refine ⟨_, (exec_loadRegs_eq_next s _ x).mpr ⟨by omega, rfl⟩, rfl, fun q => ?_⟩
  rw [State.setPc_V, State.get_loadRegsFrom_readBytes]
  exact if_congr Nat.lt_succ_iff rfl rfl

/-- Settles O44: the load reads the range that the dump wrote, since the dump leaves `I` and only registers change between
(R145, decision D12). -/
theorem dumpThenLoadRestoresRegisters : Obligations.DumpThenLoadRestoresRegisters := by
  intro x s t t' hdump hregs
  obtain ⟨hfit, rfl⟩ := (exec_storeRegs_eq_next s t x).mp hdump
  have hI : t'.I = s.I := by rw [hregs]; rfl
  have hmem (k : Reg) (hk : k ≤ x) : t'.readByte (s.I.toNat + k.val) = s.V.get k := by
    rw [hregs]
    exact s.readByte_writeBytes_regsUpTo s.I.toNat hk
  obtain ⟨u, hload, -, hget⟩ := (loadFillsRegistersInOrder x t').1 (by rw [hI]; omega)
  exact ⟨u, hload, fun k hk => by rw [hget, if_pos hk, hI, hmem k hk]⟩

end Sys2Proof.Machine

namespace Sys2Proof.Machine

/-! ### Faults and the moves of the other agents (60_exceptions.md) -/

section

variable {s : State} (x : Reg) (f : Fault)

theorem exec_skp_eq_fault : exec (.skp x) s = .fault f ↔
    15 < (s.V.get x).toNat ∧ f = .addressOutOfRange .keyIndex (s.V.get x).toNat := by
  simp [exec, execSkp, checked_eq_fault, checkKey_eq_error, State.readV]

theorem exec_sknp_eq_fault : exec (.sknp x) s = .fault f ↔
    15 < (s.V.get x).toNat ∧ f = .addressOutOfRange .keyIndex (s.V.get x).toNat := by
  simp [exec, execSknp, checked_eq_fault, checkKey_eq_error, State.readV]

/-- A key wait never faults: it arms, waits or resolves (R133). -/
theorem exec_ldVxK_ne_fault : exec (.ldVxK x) s ≠ .fault f := by
  simp only [exec, execLdVxK]
  cases s.kwArmed
  · simp
  · cases firstFreshKey s.kwSnap s.key <;> simp

end

/-- Settles O8: each instruction that makes a check faults exactly when its check fails, and every other one completes
(R160, R162, decisions D1, D6, D20, D22). -/
theorem executionFaultsAreExactlyThese : Obligations.ExecutionFaultsAreExactlyThese := by
  intro i s f
  cases i with
  | call nnn => simp [exec_call_eq_fault]
  | ret => simp [exec_ret_eq_fault]
  | drw x y n =>
    have hpast : 0 < n ∧ 4096 < s.I.toNat + n ↔ 0 < n ∧ 0xFFF < s.I.toNat + n - 1 := by omega
    simp [exec_drw_eq_fault, hpast, and_assoc]
  | skp x => simp [exec_skp_eq_fault]
  | sknp x => simp [exec_sknp_eq_fault]
  | ldBVx x => simp [exec_ldBVx_eq_fault]
  | storeRegs x => simp [exec_storeRegs_eq_fault]
  | loadRegs x => simp [exec_loadRegs_eq_fault]
  | ldVxK x => simp [exec_ldVxK_ne_fault]
  | _ => simp

/-- Whether and how an execution faults depends on `sp`, `I` and the general registers only (R160). -/
theorem exec_eq_fault_congr {i : Instr} {s t : State} {f : Fault} (hsp : t.sp = s.sp) (hI : t.I = s.I) (hV : t.V = s.V)
    (h : exec i s = .fault f) : exec i t = .fault f := by
  rw [executionFaultsAreExactlyThese] at h ⊢
  rwa [hsp, hI, hV]

/-- A step's fault depends on what memory reads, and on `pc`, `sp`, `I` and the general registers only (R160, R165). -/
theorem step_eq_fault_congr {s t : State} {f : Fault} (hpc : t.pc = s.pc) (hmem : ∀ a, t.readByte a = s.readByte a)
    (hsp : t.sp = s.sp) (hI : t.I = s.I) (hV : t.V = s.V) (h : step s = .fault f) : step t = .fault f := by
  rw [step_eq_fault] at h ⊢
  rw [fetchDecode_congr s t hpc hmem]
  exact h.imp_right fun ⟨i, hfetch, hexec⟩ => ⟨i, hfetch, exec_eq_fault_congr hsp hI hV hexec⟩

/-- A fault outlasts one move of an agent other than the host: a faulting step keeps the state (R166), and a timer tick or
a keyboard write changes nothing that a fault depends on (R171, R174). -/
theorem State.move_keeps_fault {s : State} {f : Fault} {m : Move} (h : step s = .fault f)
    (hm : m = .step ∨ m = .timerTick ∨ ∃ k, m = .keyboardWrite k) : step (s.move m).1 = .fault f := by
  obtain rfl | rfl | ⟨k, rfl⟩ := hm
  · rwa [State.move_step_of_fault h]
  · exact step_eq_fault_congr (s := s) rfl (fun _ => rfl) rfl rfl rfl h
  · exact step_eq_fault_congr (s := s) rfl (fun _ => rfl) rfl rfl rfl h

/-- Settles O9, by induction on the moves: `State.move_keeps_fault` is the step (R167, decision D11). -/
theorem faultRepeatsUntilHostResets : Obligations.FaultRepeatsUntilHostResets := by
  intro s f ms h hms
  induction ms generalizing s with
  | nil => exact h
  | cons m ms ih =>
    obtain ⟨hm, hms⟩ := List.forall_mem_cons.mp hms
    exact ih (s.move m).1 (State.move_keeps_fault h hm) hms

/-- A timer counts down to zero and stays there (R171). -/
theorem toNat_tickDown (b : Byte) : (tickDown b).toNat = b.toNat - 1 := by
  unfold tickDown
  split
  · next h => rw [h]; rfl
  · next h =>
    have hpos : b.toNat ≠ 0 := fun h0 => h (BitVec.eq_of_toNat_eq h0)
    have := b.isLt
    rw [BitVec.toNat_sub, show (1 : Byte).toNat = 1 from rfl]
    omega

/-- Settles O14: `toNat_tickDown` for each of the two timers (R171). -/
theorem timerTickDecrementsBothTimers : Obligations.TimerTickDecrementsBothTimers := fun s =>
  ⟨s.timerTick, rfl, rfl, toNat_tickDown s.DT, toNat_tickDown s.ST⟩

/-- Settles O15: the write is the state with its keyboard replaced (R174). -/
theorem keyboardWriteReplacesKeysOnly : Obligations.KeyboardWriteReplacesKeysOnly := fun s k =>
  ⟨s.keyboardWrite k, rfl, rfl, fun _ => rfl⟩

end Sys2Proof.Machine

namespace Sys2Proof.Machine

/-! ### Reset, load and the font table (70_reset_and_hazards.md) -/

/-- The reset state meets the description of R190, field by field. -/
theorem State.isReset_resetWith (font : Font) : (State.resetWith font).IsReset := by
  have hzero {α : Type} (n : Nat) (v : α) (k : Fin n) : (Vector.replicate n v).get k = v := by
    simp [Vector.get_eq_getElem]
  exact ⟨hzero 16 0, rfl, rfl, rfl, hzero 16 0, pixel_clearFb, rfl, rfl, hzero 16 false, rfl, rfl, hzero 16 false,
    fun a ha => unlistedByte_below font a (by omega), fun a ha _ => unlistedByte_above font a ha⟩

/-- `init` gives the reset state of the machine's own table, but for the draw counter, which R190 does not name. -/
theorem State.isReset_init (s : State) : s.init.IsReset := State.isReset_resetWith s.font

/-- Settles O11 (R190). -/
theorem initGivesTheResetState : Obligations.InitGivesTheResetState :=
  ⟨fun font => ⟨State.isReset_resetWith font, rfl⟩, fun s => ⟨s.isReset_init, rfl⟩, rfl⟩

theorem State.init_resetWith (font : Font) : (State.resetWith font).init = State.resetWith font := rfl

/-- The reset state meets the three invariants, as every state after an `init` does. -/
theorem State.resetWith_invariants (font : Font) : (State.resetWith font).MemoryCanonical ∧
    (State.resetWith font).KeyWaitAtPc ∧ (State.resetWith font).PcBounded := by
  rw [← State.init_resetWith]
  exact ⟨State.init_memoryCanonical _, State.keyWaitAtPc_of_idle rfl, State.init_pcBounded _⟩

/-- Settles O55: `State.reset` is the reset state with the default table (R134, R190, R25). -/
theorem resetMeetsTheInvariants : Obligations.ResetMeetsTheInvariants :=
  ⟨State.resetWith_invariants, State.resetWith_invariants defaultFont⟩

/-- A load of a source that was read and fits copies it over the state after `init` (R194). -/
theorem State.move_loadRom_of_ok {source : Option (List Byte)} {bytes : List Byte} (s : State)
    (h : checkRom source = .ok bytes) : s.move (.loadRom source) =
      ({ s.init.writeBytes 0x200 bytes with romSize := Fin.ofNat 3585 bytes.length }, .completed) := by
  simp only [State.move, State.loadRom, h]

/-- A load that fails is an `init` (R195, decision D17). -/
theorem State.move_loadRom_of_error {source : Option (List Byte)} {e : RomLoadError} (s : State)
    (h : checkRom source = .error e) : s.move (.loadRom source) = (s.init, .romLoadError e) := by
  simp only [State.move, State.loadRom, h]

/-- Settles O12: the bytes are written at 0x200, and the number of bytes that fit fits `rom_size` (R194, R195). -/
theorem loadRomCopiesBytes : Obligations.LoadRomCopiesBytes := by
  intro s bytes hfit
  have hload := s.move_loadRom_of_ok ((checkRom_eq_ok (some bytes) bytes).mpr ⟨rfl, hfit⟩)
  refine ⟨_, hload, rfl, ?size, fun k hk => ?copied, fun a ha => ?frame⟩
  case size => exact Nat.mod_eq_of_lt (by omega)
  case copied => exact s.init.readByte_writeBytes_add 0x200 bytes hk
  case frame => exact State.readByte_writeBytes_of_out (s := s.init) ha

/-- Settles O13: a source that is no ROM that fits fails the check (R195, decision D17). -/
theorem failedLoadLeavesResetState : Obligations.FailedLoadLeavesResetState := by
  intro s source hbad
  cases hcheck : checkRom source with
  | ok bytes =>
    obtain ⟨hsource, hfit⟩ := (checkRom_eq_ok source bytes).mp hcheck
    exact absurd (hbad bytes hsource) (by omega)
  | error e => exact ⟨s.init, e, s.move_loadRom_of_error hcheck, s.isReset_init, rfl⟩

/-! ### Two machines whose memories read alike (R192) -/

/-- The state with another font table and other memory cells. -/
def State.withStore (s : State) (font : Font) (m : Memory) : State := { s with font := font, memory := m }

section

variable {s t : State} {font : Font} {m : Memory}

/-- A store that reads alike gives the same ranges of bytes. -/
theorem State.readBytes_withStore (halike : ∀ a, Memory.read font m a = s.readByte a) (a n : Nat) :
    (s.withStore font m).readBytes a n = s.readBytes a n :=
  Memory.readBytes_congr s.font font s.memory m halike a n

/-- An execution that completes does so over a store that reads alike, and the stores read alike after it: a writer writes
the same bytes to both, a reader reads the same bytes from both, and the others do not look at memory (R192). -/
theorem exec_withStore_eq_next {i : Instr} (halike : ∀ a, Memory.read font m a = s.readByte a)
    (h : exec i s = .next t) : ∃ m', exec i (s.withStore font m) = .next (t.withStore font m') ∧
      ∀ a, Memory.read font m' a = t.readByte a := by
  cases i with
  | ldBVx x =>
    obtain ⟨hfit, rfl⟩ := (exec_ldBVx_eq_next s t x).mp h
    exact ⟨_, (exec_ldBVx_eq_next (s.withStore font m) _ x).mpr ⟨hfit, rfl⟩,
      Memory.read_writeBytes_congr s.font font s.memory m halike s.I.toNat _⟩
  | storeRegs x =>
    obtain ⟨hfit, rfl⟩ := (exec_storeRegs_eq_next s t x).mp h
    exact ⟨_, (exec_storeRegs_eq_next (s.withStore font m) _ x).mpr ⟨hfit, rfl⟩,
      Memory.read_writeBytes_congr s.font font s.memory m halike s.I.toNat _⟩
  | loadRegs x =>
    obtain ⟨hfit, rfl⟩ := (exec_loadRegs_eq_next s t x).mp h
    refine ⟨m, (exec_loadRegs_eq_next (s.withStore font m) _ x).mpr ⟨hfit, ?_⟩, halike⟩
    rw [State.readBytes_withStore halike]
    rfl
  | drw x y n =>
    obtain ⟨hfit, rfl⟩ := (exec_drw_eq_next s t x y n).mp h
    refine ⟨m, (exec_drw_eq_next (s.withStore font m) _ x y n).mpr ⟨hfit, ?_⟩, halike⟩
    rw [drawingOf, State.readBytes_withStore halike]
    rfl
  | ret =>
    obtain ⟨w, u, hpop, rfl⟩ := (exec_ret_eq_next s t).mp h
    obtain ⟨hsp, hw, hu⟩ := (State.popPc_eq_ok s u w).mp hpop
    have hpop' : (s.withStore font m).popPc = .ok (w, u.withStore font m) :=
      (State.popPc_eq_ok _ _ w).mpr ⟨hsp, hw, by rw [hu]; rfl⟩
    exact ⟨m, (exec_ret_eq_next _ _).mpr ⟨w, _, hpop', rfl⟩, by rw [hu]; exact halike⟩
  | call nnn =>
    obtain ⟨u, hpush, rfl⟩ := (exec_call_eq_next s t nnn).mp h
    obtain ⟨hroom, hsp, hstack, hu⟩ := (State.pushPc_eq_ok s u).mp hpush
    have hpush' : (s.withStore font m).pushPc = .ok (u.withStore font m) :=
      (State.pushPc_eq_ok _ _).mpr ⟨hroom, hsp, hstack, by rw [hu]; rfl⟩
    exact ⟨m, (exec_call_eq_next _ _ nnn).mpr ⟨_, hpush', rfl⟩, by rw [hu]; exact halike⟩
  | skp x =>
    obtain ⟨k, hk, rfl⟩ := (exec_skp_eq_next s t x).mp h
    exact ⟨m, (exec_skp_eq_next (s.withStore font m) _ x).mpr ⟨k, hk, rfl⟩, halike⟩
  | sknp x =>
    obtain ⟨k, hk, rfl⟩ := (exec_sknp_eq_next s t x).mp h
    exact ⟨m, (exec_sknp_eq_next (s.withStore font m) _ x).mpr ⟨k, hk, rfl⟩, halike⟩
  | ldVxK x =>
    have hwait := exec_ldVxK_eq_next (s.withStore font m)
    obtain ⟨hidle, rfl⟩ | ⟨harmed, hnone, rfl⟩ | ⟨harmed, k, hfresh, rfl⟩ := (exec_ldVxK_eq_next s t x).mp h
    · exact ⟨m, (hwait _ x).mpr (.inl ⟨hidle, rfl⟩), halike⟩
    · exact ⟨m, (hwait _ x).mpr (.inr (.inl ⟨harmed, hnone, rfl⟩)), halike⟩
    · exact ⟨m, (hwait _ x).mpr (.inr (.inr ⟨harmed, k, hfresh, rfl⟩)), halike⟩
  | _ =>
    cases h
    exact ⟨m, rfl, halike⟩

/-- A step that completes does so over a store that reads alike, and the stores read alike after it (R192). -/
theorem step_withStore_eq_next (halike : ∀ a, Memory.read font m a = s.readByte a) (h : step s = .next t) :
    ∃ m', step (s.withStore font m) = .next (t.withStore font m') ∧ ∀ a, Memory.read font m' a = t.readByte a := by
  obtain ⟨i, hfetch, hexec⟩ := (step_eq_next s t).mp h
  obtain ⟨m', hexec', halike'⟩ := exec_withStore_eq_next halike hexec
  have hfetch' := (fetchDecode_congr s (s.withStore font m) rfl halike).trans hfetch
  exact ⟨m', (step_eq_next _ _).mpr ⟨i, hfetch', hexec'⟩, halike'⟩

end

theorem step_font {s t : State} (h : step s = .next t) : t.font = s.font := by
  obtain ⟨i, -, hexec⟩ := (step_eq_next s t).mp h
  obtain ⟨hfont, -⟩ := exec_memory hexec
  exact hfont

/-- A load keeps the machine's table, as `init` does (R190, R195). -/
theorem State.loadRom_font (s : State) (source : Option (List Byte)) : (s.loadRom source).font = s.font := by
  obtain hload | ⟨bytes, -, hload⟩ := s.loadRom_cases source
  all_goals
    rw [hload]
    rfl

/-- No move of any agent changes the table of a machine (R5). -/
theorem State.move_font (s : State) (m : Move) : (s.move m).1.font = s.font :=
  State.move_keeps (P := fun t => t.font = s.font) (fun _ _ hs h => (step_font h).trans hs) (fun _ hs => hs)
    (fun _ _ hs => hs) (fun _ hs => hs) (fun t source hs => (t.loadRom_font source).trans hs) s m rfl

/-- Settles O60: the second machine is the first one with another store (R192). -/
theorem fontIsSeenThroughMemoryAlone : Obligations.FontIsSeenThroughMemoryAlone := by
  refine ⟨fun s s' hs' halike => ?_, State.move_font⟩
  have hother : s' = s.withStore s'.font s'.memory := hs'
  refine ⟨fun t h => ?completes, fun f h => ?faults⟩
  case completes =>
    obtain ⟨m, hstep, halike'⟩ := step_withStore_eq_next halike h
    exact ⟨t.withStore s'.font m, by rw [hother]; exact hstep, rfl, halike'⟩
  case faults =>
    rw [hother]
    exact step_eq_fault_congr (s := s) rfl halike rfl rfl rfl h

end Sys2Proof.Machine
